-- ==== Sys2Proof/Word.lean ====
section
/-!
DEFINITION. The word types of the block: bytes, 32-bit header integers, pixels and history-table slots
(spec/00_scope.md R9, R10).
-/

namespace Sys2Proof

/-- A byte of a buffer, or one channel of a pixel: unsigned 8 bits (R9, R10; `CH_BITS` of R7). -/
abbrev Byte := BitVec 8

/-- The pattern of a 32-bit header integer (R19, R20, R72). -/
abbrev Word32 := BitVec 32

/-- The number of a slot of the history table (`HT_SLOTS` of R7; R29). -/
abbrev Slot := Fin 64

/-- A pixel: four unsigned 8-bit channels, always all four (R10, `NCH` of R7). -/
structure Pixel where
  r : Byte
  g : Byte
  b : Byte
  a : Byte
deriving DecidableEq, Repr, Inhabited

/-- The 32-bit packing `{r, g, b, a}` of a pixel held in a register: r in bits 31:24, a in bits 7:0 (R10).
No interface of the block exposes it. -/
def Pixel.word (p : Pixel) : Word32 := p.r ++ p.g ++ p.b ++ p.a

end Sys2Proof
end

