-- ==== Sys2Proof/Config.lean ====
section
/-!
DEFINITION. What is fixed for a block: the constants and the OPEN parameters of spec/00_scope.md R7, and the
free values (the values the spec leaves unspecified: spec/93_implementation_defined.md U1, U4, U5; R24).
-/

namespace Sys2Proof.Config

/-- `START_PIXEL`: the previous pixel of the first pixel of a call (R7, R25). -/
def startPixel : Pixel := ⟨0, 0, 0, 255⟩

/-- `HT_RESET`: what every slot of the history table holds at the start of a call (R7, R29). -/
def zeroPixel : Pixel := ⟨0, 0, 0, 0⟩

/-- The OPEN parameters of the block (R7; D8, D9, D11). They are held in State, so that a statement about every
state is a statement about every value of them (notes/assumptions/1.md). -/
structure Params where
  /-- `MAGIC`: the first four bytes of a stream. -/
  magic : Vector Byte 4
  /-- `SENTINEL`: the last eight bytes of a stream. -/
  sentinel : Vector Byte 8
  /-- `MAX_PIXELS`: the largest image the block accepts. -/
  maxPixels : Nat
deriving DecidableEq, Repr

/-- The defaults of R7 (the magic "qoif" and the sentinel are marked there as general knowledge, G1 and G2).
DESIGN CHOICE (notes/assumptions/1.md). -/
def defaultParams : Params where
  magic := ⟨#[0x71, 0x6F, 0x69, 0x66], rfl⟩
  sentinel := ⟨#[0x00, 0x00, 0x00, 0x00, 0x00, 0x00, 0x00, 0x01], rfl⟩
  maxPixels := 4294967296

/-- Free value: what byte `addr` of `IBUF` reads as when the host has not written it (epoch, addr).
notes/assumptions/3.md. -/
opaque freeIbufByte : Nat → Nat → Byte

/-- Free value: what pixel `idx` of `IPIX` reads as when the host has not written it (epoch, idx).
notes/assumptions/3.md. -/
opaque freeIpixPixel : Nat → Nat → Pixel

/-- Free value: what the host reads at byte `addr` of `OBUF` where the spec leaves the contents unspecified
(epoch, CUR, addr). U1, U4, U5; notes/assumptions/4.md. -/
opaque freeObufByte : Nat → Nat → Nat → Byte

/-- Free value: what the host reads at pixel `idx` of `OPIX` where the spec leaves the contents unspecified
(epoch, CUR, idx). U1, U4, U5; notes/assumptions/4.md. -/
opaque freeOpixPixel : Nat → Nat → Nat → Pixel

/-- Free value: what the host reads from `OUT_LEN` while a call is BUSY (epoch, CUR). R24; notes/assumptions/15.md. -/
opaque freeOutLen : Nat → Nat → Nat

end Sys2Proof.Config
end

