-- ==== Sys2Proof/Syntax.lean ====
section
/-!
DEFINITION. The instructions of the block: the six record kinds of spec/opcode_table.json, with their logical
operands (spec/30_encoding.md R61, R70).
-/

namespace Sys2Proof

/-- A record of the opcode stream, with the logical operands of R61. -/
inductive Instr where
  /-- `RGB r, g, b` (R93). -/
  | rgb (r g b : Byte)
  /-- `RGBA r, g, b, a` (R94). -/
  | rgba (r g b a : Byte)
  /-- `INDEX k` (R95). -/
  | index (k : Slot)
  /-- `DIFF dr, dg, db` (R96). -/
  | diff (dr dg db : Int)
  /-- `LUMA dg, drg, dbg`, where `drg` is dR - dG and `dbg` is dB - dG (R97). -/
  | luma (dg drg dbg : Int)
  /-- `RUN n` (R98). -/
  | run (n : Nat)
deriving DecidableEq, Repr

end Sys2Proof
end

