-- ==== Sys2Proof/Machine/State.lean ====
section
/-!
DEFINITION. Everything the spec gives the machine (spec/10_state.md, spec/20_memory.md, spec/00_scope.md R7), as
plain data, and the machine right after reset (R32, R147). INVENTORY.md lists every field with its rule.
-/

namespace Sys2Proof.Machine

/-- `STATUS.STATE`, bits 1:0 of STATUS (R18). -/
inductive CallState where
  | idle | busy | done | error
deriving DecidableEq, Repr

/-- `STATUS.MODE`, bit 2 of STATUS: the mode of the current or last call (R18). -/
inductive Mode where
  | encode | decode
deriving DecidableEq, Repr

/-- The error codes 0 to 8 of R132. Codes 9 to 15 are reserved and never reported, so they are no value of
`STATUS.ERR` here (U9). -/
inductive ErrorCode where
  | none | malformedHeader | badSentinel | truncatedStream | dimensionMismatch | invalidImage
  | outOfRangePayload | marshalArg | capacity
deriving DecidableEq, Repr

/-- The fields of the STATUS register (R18). Bit 3 is reserved and reads 0: `statusWord` of Flags.lean. -/
structure Status where
  state : CallState
  mode : Mode
  err : ErrorCode
deriving DecidableEq, Repr

/-- The commands of the CMD input (R17). -/
inductive Command where
  | startEncode | startDecode | reset
deriving DecidableEq, Repr

/-- One thing the host does to the block (R14, R17, R150, R151), between two steps of the engine
(notes/assumptions/2.md). -/
inductive HostAction where
  /-- The host does nothing while the engine takes one step. -/
  | pause
  /-- A command on the CMD input (R17). -/
  | command (c : Command)
  /-- The hardware reset, asserted at power-on (R147). -/
  | hardwareReset
  /-- A write to STATUS, which is ignored (R18). -/
  | writeStatus (v : Byte)
  /-- A write to WIDTH (R19). -/
  | writeWidth (v : Word32)
  /-- A write to HEIGHT (R20). -/
  | writeHeight (v : Word32)
  /-- A write to CHANNELS (R21). -/
  | writeChannels (v : Byte)
  /-- A write to COLORSPACE (R22). -/
  | writeColorspace (v : Byte)
  /-- A write to IN_LEN (R23). -/
  | writeInLen (n : Nat)
  /-- A write of one byte of the input byte buffer (R150). -/
  | writeIbuf (addr : Nat) (v : Byte)
  /-- A write of one pixel of the input pixel buffer (R150). -/
  | writeIpix (idx : Nat) (p : Pixel)
  /-- The host provides an OBUF with room for `bytes` bytes (R35, R150; notes/assumptions/25.md, 27.md). -/
  | provideObuf (bytes : Nat)
  /-- The host provides an OPIX with room for `pixels` pixels (R150; notes/assumptions/25.md, 27.md). -/
  | provideOpix (pixels : Nat)
  /-- A write by the host to its own output byte buffer (R154). -/
  | writeObuf (addr : Nat) (v : Byte)
  /-- A write by the host to its own output pixel buffer (R154). -/
  | writeOpix (idx : Nat) (p : Pixel)
deriving DecidableEq, Repr

/-- The machine never stops with a fault: "No behaviour of the block is `fault` beyond the errors of
60_exceptions.md rule R132. No behaviour is `stuck`" (spec/93_implementation_defined.md section 1), and those errors
are next states (`raiseError` of Ops.lean, R136). So there is no constructor; this is safe. -/
inductive Fault where
deriving DecidableEq, Repr

/-- Why the machine gives no meaning to what it is asked to do. -/
inductive Refusal where
  /-- An instruction of the opcode table that has no meaning yet; raised by no arm of `exec` now. Safe. -/
  | notModelled (mnemonic : String)
  /-- The host wrote a buffer of the running call, or an input register, while BUSY: raised by `hostStep`. U2 of
  spec/93_implementation_defined.md treats it as `refuse`. Raised too where the host provides another output buffer for the one
  the running call uses: DESIGN CHOICE (notes/assumptions/27.md). Safe. -/
  | hostWroteWhileBusy
  /-- The host started a call with less output room than R150 asks for: raised by `startEncode` and `startDecode`.
  U6 of spec/93_implementation_defined.md treats it as `refuse`. Safe. -/
  | outputBufferTooSmall
deriving DecidableEq, Repr

/-- The four buffers of R33, each an address space of its own. A list holds the cells whose contents are known,
by strictly rising address; a cell that is not listed has no known value (notes/assumptions/3.md, 4.md). -/
structure Memory where
  /-- `IBUF`: input bytes of a decode call. -/
  ibuf : List Host.Cell
  /-- `IPIX`: input pixels of an encode call; the bytes of a cell are `pixelBytes` of its pixel (R40, Ops.lean). -/
  ipix : List (Nat × Pixel)
  /-- `OBUF`: output bytes of an encode call. -/
  obuf : List Host.Cell
  /-- `OPIX`: output pixels of a decode call, laid out as IPIX. -/
  opix : List (Nat × Pixel)
deriving DecidableEq, Repr

/-- Everything the spec gives the machine. -/
structure State where
  /-- `STATUS` (R18). -/
  status : Status
  /-- `WIDTH` (R19). -/
  width : Word32
  /-- `HEIGHT` (R20). -/
  height : Word32
  /-- `CHANNELS` (R21). -/
  channels : Byte
  /-- `COLORSPACE` (R22). -/
  colorspace : Byte
  /-- `IN_LEN` (R23). -/
  inLen : Nat
  /-- `OUT_LEN` (R24). -/
  outLen : Nat
  /-- `PREV` (R25). -/
  prev : Pixel
  /-- `RUN` (R26). -/
  run : BitVec 6
  /-- `CUR` (R27, R128). -/
  cur : Nat
  /-- `HT` (R29). -/
  ht : Vector Pixel 64
  /-- `IBUF`, `IPIX`, `OBUF`, `OPIX` (R33). -/
  mem : Memory
  /-- The room of OBUF in bytes (R35, R150). -/
  obufCap : Nat
  /-- The room of OPIX in pixels (R150). -/
  opixCap : Nat
  /-- `MAGIC`, `SENTINEL`, `MAX_PIXELS` (R7); no step changes them. -/
  params : Config.Params
  /-- The MODEL's own: what the host will do, first action first (notes/assumptions/2.md). -/
  inbox : List HostAction
  /-- The MODEL's own: the counter the free values are applied to (notes/assumptions/5.md). -/
  epoch : Nat
deriving DecidableEq, Repr

/-- The history table with every slot (0,0,0,0) (R29, R32). -/
def clearTable : Vector Pixel 64 := Vector.replicate 64 Config.zeroPixel

/-- The machine right after reset (R32, R147). DESIGN CHOICE for the fields that are no register of the spec:
no room provided (notes/assumptions/7.md), the default parameters (1.md), an idle host (2.md), epoch 0 (5.md). -/
def State.reset : State where
  status := ⟨.idle, .encode, .none⟩
  width := 0
  height := 0
  channels := 0
  colorspace := 0
  inLen := 0
  outLen := 0
  prev := Config.startPixel
  run := 0
  cur := 0
  ht := clearTable
  mem := ⟨[], [], [], []⟩
  obufCap := 0
  opixCap := 0
  params := Config.defaultParams
  inbox := []
  epoch := 0

end Sys2Proof.Machine
end

