-- ==== Sys2Proof/Machine/Operands.lean ====
section
/-!
DEFINITION. The delta arithmetic unit (spec/42_opcodes.md R88 to R91) and the pixel each kind of record names
(R93 to R97). The unit holds no state (R28).
-/

namespace Sys2Proof.Machine

/-- `u8(x)`: x mod 256 as an unsigned byte (R9). -/
def u8 (x : Int) : Byte := BitVec.ofInt 8 x

/-- `s8(x)`: the two's-complement reading of u8(x) (R9). -/
def s8 (x : Int) : Int := (u8 x).toInt

/-- The result of the delta unit (R88). -/
structure DeltaResult where
  dr : Int
  dg : Int
  db : Int
  sameA : Bool
deriving DecidableEq, Repr

/-- One channel's signed delta, the difference taken modulo 256 (R12, R88). -/
def channelDelta (x y : Byte) : Int := s8 ((x.toNat : Int) - (y.toNat : Int))

/-- `delta(p, q)` (R88). -/
def delta (p q : Pixel) : DeltaResult where
  dr := channelDelta p.r q.r
  dg := channelDelta p.g q.g
  db := channelDelta p.b q.b
  sameA := decide (p.a = q.a)

/-- `lo <= x <= hi` on integers. -/
def within (lo hi x : Int) : Bool := decide (lo ≤ x) && decide (x ≤ hi)

/-- `diffOk(p, q)` (R89). -/
def diffOk (p q : Pixel) : Bool :=
  let d := delta p q
  d.sameA && within (-2) 1 d.dr && within (-2) 1 d.dg && within (-2) 1 d.db

/-- `lumaOk(p, q)`, the two differences exact (R90). -/
def lumaOk (p q : Pixel) : Bool :=
  let d := delta p q
  d.sameA && within (-32) 31 d.dg && within (-8) 7 (d.dr - d.dg) && within (-8) 7 (d.db - d.dg)

/-- `recon(q, dR, dG, dB)`: each colour channel wraps modulo 256 and alpha is kept (R91). -/
def recon (q : Pixel) (dR dG dB : Int) : Pixel :=
  ⟨u8 ((q.r.toNat : Int) + dR), u8 ((q.g.toNat : Int) + dG), u8 ((q.b.toNat : Int) + dB), q.a⟩

/-- The pixel of an RGB literal: the payload and PREV's alpha (R93). -/
def rgbPixel (prev : Pixel) (r g b : Byte) : Pixel := ⟨r, g, b, prev.a⟩

/-- The pixel of an RGBA literal: the payload (R94). -/
def rgbaPixel (r g b a : Byte) : Pixel := ⟨r, g, b, a⟩

/-- The pixel of an INDEX record: the slot's contents, which is also `get(k)` (R84, R95). -/
def indexPixel (ht : Vector Pixel 64) (k : Slot) : Pixel := ht[k]

/-- The pixel of a DIFF record (R96). -/
def diffPixel (prev : Pixel) (dr dg db : Int) : Pixel := recon prev dr dg db

/-- The pixel of a LUMA record: dR = (dR - dG) + dG and dB = (dB - dG) + dG (R97). -/
def lumaPixel (prev : Pixel) (dg drg dbg : Int) : Pixel := recon prev (dg + drg) dg (dg + dbg)

end Sys2Proof.Machine
end

