-- ==== Sys2Proof/Machine/History.lean ====
section
/-!
DEFINITION. The pixel history hash table (spec/41_pixel_history.md R81 to R87).
-/

namespace Sys2Proof.Machine

/-- The hash sum, exact, 0 .. 6630 (R81). -/
def hashSum (p : Pixel) : Nat := 3 * p.r.toNat + 5 * p.g.toNat + 7 * p.b.toNat + 11 * p.a.toNat

/-- `hash(p)`: the slot of a pixel (R81). -/
def pixelHash (p : Pixel) : Slot := ⟨hashSum p % 64, Nat.mod_lt _ (by decide)⟩

/-- `get(k)` (R84). -/
def tableGet (ht : Vector Pixel 64) (k : Slot) : Pixel := ht[k]

/-- `put(p)`: the pixel goes to the slot of its hash, whatever that held (R85). -/
def tablePut (ht : Vector Pixel 64) (p : Pixel) : Vector Pixel 64 := ht.set (pixelHash p).val p (pixelHash p).isLt

end Sys2Proof.Machine
end

