-- ==== Sys2Proof/Machine/Ops.lean ====
section
/-!
DEFINITION. The operations every instruction and sequencer shares: reading and writing buffers
(spec/00_scope.md R11, spec/20_memory.md), producing a pixel (spec/42_opcodes.md), the initialisation of a call
(spec/70_reset_and_hazards.md R149), raising an error (spec/60_exceptions.md R136) and the reset of the registers (R147).
-/

namespace Sys2Proof.Machine

/-- The known contents of one cell of a buffer; none where nothing known has been written. -/
def readCell {α : Type} : List (Nat × α) → Nat → Option α
  | [], _ => none
  | c :: rest, a => if c.1 = a then some c.2 else readCell rest a

/-- Write one cell of a buffer, keeping the addresses strictly rising. -/
def writeCell {α : Type} : List (Nat × α) → Nat → α → List (Nat × α)
  | [], a, v => [(a, v)]
  | c :: rest, a, v =>
    if a < c.1 then (a, v) :: c :: rest
    else if a = c.1 then (a, v) :: rest
    else c :: writeCell rest a v

/-- Write consecutive cells from address `a` on. -/
def writeCells {α : Type} : List (Nat × α) → Nat → List α → List (Nat × α)
  | m, _, [] => m
  | m, a, v :: vs => writeCells (writeCell m a v) (a + 1) vs

/-- The canonical form of one buffer: addresses strictly rising. A cell that is not listed reads as no value, which
no entry can equal. -/
abbrev cellsRise {α : Type} (m : List (Nat × α)) : Prop := m.Pairwise fun c d => c.1 < d.1

/-- The canonical form of memory. -/
abbrev Memory.wf (m : Memory) : Prop := cellsRise m.ibuf ∧ cellsRise m.ipix ∧ cellsRise m.obuf ∧ cellsRise m.opix

/-- The four bytes of a pixel where it is laid out as bytes, lowest first: R, G, B, A (R40). -/
def pixelBytes (p : Pixel) : List Byte := [p.r, p.g, p.b, p.a]

/-- The pixel of four bytes laid out as R40 says. -/
def pixelOfBytes (b0 b1 b2 b3 : Byte) : Pixel := ⟨b0, b1, b2, b3⟩

/-- Byte `c` of a pixel of a pixel buffer, `c` in 0 .. 3 (R33, R40). -/
def pixelByte (p : Pixel) (c : Nat) : Byte := (pixelBytes p).getD c 0

/-- The exact product WIDTH * HEIGHT, without 32-bit wrap (R100, D36). -/
def pixelCount (s : State) : Nat := s.width.toNat * s.height.toNat

/-- One byte of IBUF: what the host last wrote there (R44), else a free value (notes/assumptions/3.md). -/
def readIbuf (s : State) (addr : Nat) : Byte := (readCell s.mem.ibuf addr).getD (Config.freeIbufByte s.epoch addr)

/-- `PixRead(i)`: one pixel of IPIX (R11), else a free value (notes/assumptions/3.md). -/
def pixRead (s : State) (i : Nat) : Pixel := (readCell s.mem.ipix i).getD (Config.freeIpixPixel s.epoch i)

/-- IPIX as the bytes its pixels are laid out in: pixel i lies at bytes 4i .. 4i+3, in the order of R40 (R33). -/
def ipixByte (s : State) (addr : Nat) : Byte := pixelByte (pixRead s (addr / 4)) (addr % 4)

/-- `MemRead(addr, n)`: n bytes of IBUF from offset addr on (R11). -/
def memRead (s : State) (addr : Nat) : Nat → List Byte
  | 0 => []
  | n + 1 => readIbuf s addr :: memRead s (addr + 1) n

/-- `Emit(bytes)`: append to OBUF at OUT_LEN (R11, R35). -/
def emit (bs : List Byte) (s : State) : State :=
  { s with mem := { s.mem with obuf := writeCells s.mem.obuf s.outLen bs }, outLen := s.outLen + bs.length }

/-- `PixWrite(OUT_LEN, p); OUT_LEN <- OUT_LEN + 1` for each pixel of a list (R11, R36). -/
def pixWrite (ps : List Pixel) (s : State) : State :=
  { s with mem := { s.mem with opix := writeCells s.mem.opix s.outLen ps }, outLen := s.outLen + ps.length }

/-- What the five records that produce one pixel do with it: write it, store it in the table, make it PREV and pass
the record's bytes (R93 to R97, R121, R122, R128). -/
def producePixel (px : Pixel) (len : Nat) (s : State) : State :=
  let t := pixWrite [px] s
  { t with ht := tablePut t.ht px, prev := px, cur := t.cur + len }

/-- Both output buffers hold unspecified contents: nothing is known of them, and the free values are fresh
(U1, U4, U5; notes/assumptions/4.md). -/
def forgetOutputs (s : State) : State :=
  { s with mem := { s.mem with obuf := [], opix := [] }, epoch := s.epoch + 1 }

/-- Raise an error: the "trap entry" of R136. There is no return from it (R137): the next accepted start command or
RESET begins afresh. -/
def raiseError (e : ErrorCode) (s : State) : State :=
  let t := forgetOutputs { s with status := ⟨.error, s.status.mode, e⟩, outLen := 0 }
  match s.status.mode with
  | .encode => t
  | .decode => { t with width := 0, height := 0, channels := 0, colorspace := 0 }

/-- The outcome of a step that may raise an error: no state of the failing step is written but what R136 says, so the
error is raised in the state `s` before the step (R131). -/
def settle (s : State) : Except ErrorCode State → Host.Outcome State Fault Refusal
  | .ok t => .next t
  | .error e => .next (raiseError e s)

/-- A start command is accepted: MODE is the call's mode, ERR is 0, and the outputs of an earlier call are no longer
readable (R100, R117, R153; notes/assumptions/4.md). -/
def acceptStart (m : Mode) (s : State) : State := forgetOutputs { s with status := ⟨s.status.state, m, .none⟩ }

/-- The per-call initialisation once the start checks have passed (R149), with the first value of CUR. -/
def beginCall (cur : Nat) (s : State) : State :=
  { s with
    prev := Config.startPixel
    run := 0
    cur := cur
    ht := clearTable
    outLen := 0
    status := { s.status with state := .busy } }

/-- Reset by the hardware or by the RESET command: every register of R32 at its reset value. The buffers are host
memory and are not cleared, and what the outputs hold is unspecified (R147, U4, U5). -/
def resetRegisters (s : State) : State :=
  forgetOutputs
    { State.reset with
      mem := s.mem
      obufCap := s.obufCap
      opixCap := s.opixCap
      params := s.params
      inbox := s.inbox
      epoch := s.epoch }

end Sys2Proof.Machine
end

