-- ==== Sys2Proof/Machine/DeltaRecords.lean ====
section
/-!
DEFINITION. The delta records DIFF and LUMA (the "execute" parts of spec/42_opcodes.md R96, R97).
-/

namespace Sys2Proof.Machine

/-- DIFF: PREV moved by three small deltas (R96). -/
def execDiff (dr dg db : Int) (s : State) : Host.Outcome State Fault Refusal :=
  .next (producePixel (diffPixel s.prev dr dg db) 1 s)

/-- LUMA: PREV moved by a green delta and two differences from it (R97). -/
def execLuma (dg drg dbg : Int) (s : State) : Host.Outcome State Fault Refusal :=
  .next (producePixel (lumaPixel s.prev dg drg dbg) 2 s)

end Sys2Proof.Machine
end

