-- ==== Sys2Proof/Machine/IndexRecord.lean ====
section
/-!
DEFINITION. The INDEX record (the "execute" part of spec/42_opcodes.md R95).
-/

namespace Sys2Proof.Machine

/-- INDEX: the pixel of slot k, read before the store, which goes to the slot of its hash (R95, R155). -/
def execIndex (k : Slot) (s : State) : Host.Outcome State Fault Refusal :=
  .next (producePixel (indexPixel s.ht k) 1 s)

end Sys2Proof.Machine
end

