-- ==== Sys2Proof/Machine/Literals.lean ====
section
/-!
DEFINITION. The literal records RGB and RGBA (the "execute" parts of spec/42_opcodes.md R93, R94). The checks of the
record step (R119) come before: Decoder.lean.
-/

namespace Sys2Proof.Machine

/-- RGB: the payload with PREV's alpha (R93). -/
def execRgb (r g b : Byte) (s : State) : Host.Outcome State Fault Refusal :=
  .next (producePixel (rgbPixel s.prev r g b) 4 s)

/-- RGBA: the payload (R94). -/
def execRgba (r g b a : Byte) (s : State) : Host.Outcome State Fault Refusal :=
  .next (producePixel (rgbaPixel r g b a) 5 s)

end Sys2Proof.Machine
end

