-- ==== Sys2Proof/Machine/RunRecord.lean ====
section
/-!
DEFINITION. The RUN record (the "execute" part of spec/42_opcodes.md R98, spec/44_decoder.md R123).
-/

namespace Sys2Proof.Machine

/-- RUN: PREV repeated n times in one step, or, past W*H pixels, none of it and DIMENSION_MISMATCH. HT is not
written and PREV is unchanged (R98, R123). -/
def execRun (n : Nat) (s : State) : Host.Outcome State Fault Refusal :=
  if s.outLen + n > pixelCount s then .next (raiseError .dimensionMismatch s)
  else
    let t := pixWrite (List.replicate n s.prev) s
    .next { t with cur := t.cur + 1 }

end Sys2Proof.Machine
end

