-- ==== Sys2Proof/Decode.lean ====
section
/-!
DEFINITION. The decoder and, after it, the encoder of one record (spec/30_encoding.md R51 to R65).
The decoder is total on any bytes: every value of byte 0 selects a kind (R60, R63), so the only rejections are
of a byte list that holds no record or not the whole of one.
-/

namespace Sys2Proof

/-- The six kinds of record (R51). -/
inductive Kind where
  | rgb | rgba | index | diff | luma | run
deriving DecidableEq, Repr

/-- Bits `lo + w - 1 : lo` of a byte (R9). -/
def bits (b : Byte) (lo w : Nat) : BitVec w := b.extractLsb' lo w

/-- The kind of a record from its byte 0, the full-byte tags first (R58). -/
def kind (b0 : Byte) : Kind :=
  if b0 = 0xFE then .rgb
  else if b0 = 0xFF then .rgba
  else if bits b0 6 2 = 0 then .index
  else if bits b0 6 2 = 1 then .diff
  else if bits b0 6 2 = 2 then .luma
  else .run

/-- The length in bytes of a record of each kind (R59). -/
def Kind.length : Kind → Nat
  | .rgb => 4
  | .rgba => 5
  | .index => 1
  | .diff => 1
  | .luma => 2
  | .run => 1

/-- The kind of a record. -/
def Instr.kind : Instr → Kind
  | .rgb _ _ _ => .rgb
  | .rgba _ _ _ _ => .rgba
  | .index _ => .index
  | .diff _ _ _ => .diff
  | .luma _ _ _ => .luma
  | .run _ => .run

/-- The length in bytes of a record: of its kind alone (R59). -/
def Instr.length (i : Instr) : Nat := i.kind.length

/-- A signed operand from its field: the unsigned field value less the bias, exactly (R61). -/
def unbias {w : Nat} (field : BitVec w) (bias : Int) : Int := (field.toNat : Int) - bias

/-- The field of a signed operand: the operand plus the bias (R53, R54, R61). -/
def biasField (w : Nat) (operand bias : Int) : BitVec w := BitVec.ofInt w (operand + bias)

/-- The INDEX operand: bits 5:0, unbiased (R52, R61). -/
def indexOperand (b0 : Byte) : Slot := (bits b0 0 6).toFin

/-- The DIFF record of a byte: dR in bits 5:4, dG in 3:2, dB in 1:0, each biased by 2 (R53, R61). -/
def diffOperands (b0 : Byte) : Instr :=
  .diff (unbias (bits b0 4 2) 2) (unbias (bits b0 2 2) 2) (unbias (bits b0 0 2) 2)

/-- The LUMA record of two bytes: dG in byte 0 bits 5:0 biased by 32, dR - dG in byte 1 bits 7:4 and dB - dG in
byte 1 bits 3:0, each biased by 8 (R54, R61). -/
def lumaOperands (b0 b1 : Byte) : Instr :=
  .luma (unbias (bits b0 0 6) 32) (unbias (bits b1 4 4) 8) (unbias (bits b1 0 4) 8)

/-- The RUN count: bits 5:0 plus one (R55, R61). -/
def runOperand (b0 : Byte) : Nat := (bits b0 0 6).toNat + 1

/-- Why a byte list is not decoded. -/
inductive Reject where
  /-- There is no byte 0. -/
  | noBytes
  /-- The list ends before the last byte of a record of this kind. -/
  | truncated (k : Kind)
deriving DecidableEq, Repr

/-- Decode the record at the front of a byte list, giving the rest of the list (R58, R61, R65). -/
def decode : List Byte → Except Reject (Instr × List Byte)
  | [] => .error .noBytes
  | b0 :: more =>
    match kind b0, more with
    | .rgb, r :: g :: b :: rest => .ok (.rgb r g b, rest)
    | .rgba, r :: g :: b :: a :: rest => .ok (.rgba r g b a, rest)
    | .index, rest => .ok (.index (indexOperand b0), rest)
    | .diff, rest => .ok (diffOperands b0, rest)
    | .luma, b1 :: rest => .ok (lumaOperands b0 b1, rest)
    | .run, rest => .ok (.run (runOperand b0), rest)
    | k, _ => .error (.truncated k)

/-- The bytes of an instruction numbered as spec/opcode_table.json numbers them: byte i is bits 8i+7:8i, bits at
and above `nbits` are 0, and there are as many bytes as the longest record has. -/
def tableBytes (nbits w : Nat) : List Byte :=
  let v := w % 2 ^ nbits
  [BitVec.ofNat 8 v, BitVec.ofNat 8 (v / 256), BitVec.ofNat 8 (v / 65536), BitVec.ofNat 8 (v / 16777216),
    BitVec.ofNat 8 (v / 4294967296)]

/-- The instruction the decoder reads from a word of the opcode table. -/
def decodeTableWord (nbits w : Nat) : Option Instr :=
  match decode (tableBytes nbits w) with
  | .ok (i, _) => some i
  | .error _ => none

/-- The bytes of a record (R52 to R57). A well-formed record is encoded as the spec draws it; a field that does not
hold its operand keeps the operand's low bits (the constructors of R93 to R98 never ask for that). -/
def encode : Instr → List Byte
  | .rgb r g b => [0xFE, r, g, b]
  | .rgba r g b a => [0xFF, r, g, b, a]
  | .index k => [0b00#2 ++ BitVec.ofNat 6 k.val]
  | .diff dr dg db => [0b01#2 ++ biasField 2 dr 2 ++ biasField 2 dg 2 ++ biasField 2 db 2]
  | .luma dg drg dbg => [0b10#2 ++ biasField 6 dg 32, biasField 4 drg 8 ++ biasField 4 dbg 8]
  | .run n => [0b11#2 ++ BitVec.ofNat 6 (n - 1)]

end Sys2Proof
end

