-- ==== Sys2Proof/WellFormed.lean ====
section
/-!
DEFINITION. Which records are legal: every logical operand inside the range of spec/30_encoding.md R61.
The raw channels and the slot number are in range by their types.
-/

namespace Sys2Proof

/-- A DIFF delta: -2 .. 1 (R61, R96). -/
def diffRange (d : Int) : Bool := decide (-2 ≤ d) && decide (d ≤ 1)

/-- The green delta of LUMA: -32 .. 31 (R61, R97). -/
def lumaGreenRange (d : Int) : Bool := decide (-32 ≤ d) && decide (d ≤ 31)

/-- A difference field of LUMA: -8 .. 7 (R61, R97). -/
def lumaDiffRange (d : Int) : Bool := decide (-8 ≤ d) && decide (d ≤ 7)

/-- A run count: 1 .. `RUN_MAX` = 62 (R7, R61, R98). -/
def runRange (n : Nat) : Bool := decide (1 ≤ n) && decide (n ≤ 62)

/-- Every operand of the record lies in its range of R61. -/
def Instr.wellFormed : Instr → Bool
  | .rgb _ _ _ => true
  | .rgba _ _ _ _ => true
  | .index _ => true
  | .diff dr dg db => diffRange dr && diffRange dg && diffRange db
  | .luma dg drg dbg => lumaGreenRange dg && lumaDiffRange drg && lumaDiffRange dbg
  | .run n => runRange n

end Sys2Proof
end

