-- ==== Sys2Proof/Machine/Construct.lean ====
section
/-!
DEFINITION. The six opcode constructors (the "construct" parts of spec/42_opcodes.md R93 to R98, R99): logical operands
to record bytes. None clamps; an operand outside its range raises OUT_OF_RANGE_PAYLOAD and gives no bytes.
-/

namespace Sys2Proof.Machine

/-- `opRGB(payload)` (R93). -/
def opRGB : List Byte → Except ErrorCode (List Byte)
  | [r, g, b] => .ok (encode (.rgb r g b))
  | _ => .error .outOfRangePayload

/-- `opRGBA(payload)` (R94). -/
def opRGBA : List Byte → Except ErrorCode (List Byte)
  | [r, g, b, a] => .ok (encode (.rgba r g b a))
  | _ => .error .outOfRangePayload

/-- `opINDEX(k)` (R95). -/
def opINDEX (k : Int) : Except ErrorCode (List Byte) :=
  if k < 0 ∨ k > 63 then .error .outOfRangePayload else .ok (encode (.index (Fin.ofNat 64 k.toNat)))

/-- `opDIFF(dR, dG, dB)` (R96). -/
def opDIFF (dR dG dB : Int) : Except ErrorCode (List Byte) :=
  if Instr.wellFormed (.diff dR dG dB) then .ok (encode (.diff dR dG dB)) else .error .outOfRangePayload

/-- `opLUMA(dG, dRG, dBG)` (R97). -/
def opLUMA (dG dRG dBG : Int) : Except ErrorCode (List Byte) :=
  if Instr.wellFormed (.luma dG dRG dBG) then .ok (encode (.luma dG dRG dBG)) else .error .outOfRangePayload

/-- `opRUN(n)` (R98). -/
def opRUN (n : Int) : Except ErrorCode (List Byte) :=
  if n < 1 ∨ n > 62 then .error .outOfRangePayload else .ok (encode (.run n.toNat))

/-- The constructor of a record's kind applied to its operands. -/
def construct : Instr → Except ErrorCode (List Byte)
  | .rgb r g b => opRGB [r, g, b]
  | .rgba r g b a => opRGBA [r, g, b, a]
  | .index k => opINDEX k.val
  | .diff dr dg db => opDIFF dr dg db
  | .luma dg drg dbg => opLUMA dg drg dbg
  | .run n => opRUN n

end Sys2Proof.Machine
end

