-- ==== Sys2Proof/Machine/Marshal.lean ====
section
/-!
DEFINITION. The byte-stream marshaller (spec/40_marshaller.md R72 to R80). A primitive whose precondition fails raises
MARSHAL_ARG.
-/

namespace Sys2Proof.Machine

/-- `toInt32be(b)`: the 32-bit pattern, b[0] most significant (R72). -/
def toInt32be : List Byte → Except ErrorCode Word32
  | [b0, b1, b2, b3] => .ok (b0 ++ b1 ++ b2 ++ b3)
  | _ => .error .marshalArg

/-- `toS32`: the source's signed reading (R72). -/
def toS32 (w : Word32) : Int := if w.msb then (w.toNat : Int) - 2 ^ 32 else w.toNat

/-- `toU32`: the reading used for WIDTH and HEIGHT (R72). -/
def toU32 (w : Word32) : Nat := w.toNat

/-- `fromInt32be(v)`: the bytes of the pattern v mod 2^32, most significant first, by unsigned shifts (R73). -/
def fromInt32be (v : Int) : List Byte :=
  let w : Word32 := BitVec.ofInt 32 v
  [w.extractLsb' 24 8, w.extractLsb' 16 8, w.extractLsb' 8 8, w.extractLsb' 0 8]

/-- `concat(s1, ..., sk)` (R75). -/
def concat (parts : List (List Byte)) : List Byte := parts.flatten

/-- `extract(input, start, length)` (R76). -/
def extract (input : List Byte) (start length : Int) : Except ErrorCode (List Byte) :=
  if start < 0 ∨ length < 0 ∨ start + length > input.length then .error .marshalArg
  else .ok ((input.drop start.toNat).take length.toNat)

/-- The chunks of `partition` from offset `off` on (R77). -/
def chunksFrom (input : List Byte) (off : Int) : List Int → Except ErrorCode (List (List Byte))
  | [] => .ok []
  | n :: sizes =>
    match extract input off n with
    | .error e => .error e
    | .ok c =>
      match chunksFrom input (off + n) sizes with
      | .error e => .error e
      | .ok cs => .ok (c :: cs)

/-- `partition(input, n1, ..., nk)` (R77). -/
def partition (input : List Byte) (sizes : List Int) : Except ErrorCode (List (List Byte)) :=
  if sizes.sum ≠ input.length then .error .marshalArg else chunksFrom input 0 sizes

/-- `packHeader(W, H, CH, CS)` (R78, R66), with the parameter MAGIC. -/
def packHeader (magic : List Byte) (w h : Word32) (ch cs : Byte) : List Byte :=
  concat [magic, fromInt32be w.toNat, fromInt32be h.toNat, [ch], [cs]]

/-- The fields of a header (R79). -/
structure Header where
  magic : List Byte
  width : Word32
  height : Word32
  channels : Byte
  colorspace : Byte
deriving DecidableEq, Repr

/-- `unpackHeader(b)` (R79); WIDTH and HEIGHT take the pattern, which they read unsigned (R19, R20). -/
def unpackHeader (b : List Byte) : Except ErrorCode Header :=
  match partition b [4, 4, 4, 1, 1] with
  | .ok [m, w, h, [c], [s]] =>
    match toInt32be w, toInt32be h with
    | .ok w, .ok h => .ok ⟨m, w, h, c, s⟩
    | _, _ => .error .marshalArg
  | _ => .error .marshalArg

/-- `sentinelOk(b, N)`, with N = IN_LEN (R80). -/
def sentinelOk (s : State) : Bool :=
  decide (22 ≤ s.inLen) && decide (memRead s (s.inLen - 8) 8 = s.params.sentinel.toList)

end Sys2Proof.Machine
end

