-- ==== Sys2Proof/Machine/Encoder.lean ====
section
/-!
DEFINITION. The encoder sequencer (spec/43_encoder.md R100 to R113): the start, the pixel step and the finish of an
encode call.
-/

namespace Sys2Proof.Machine

/-- CHANNELS or a header's channel count is one of 3 and 4 (R21). -/
def channelsLegal (c : Byte) : Bool := c = 3 || c = 4

/-- COLORSPACE or a header's tag is one of 0 and 1 (R22). -/
def colorspaceLegal (c : Byte) : Bool := c = 0 || c = 1

/-- The checks of the start of an encode call, in the order of R100 (R134): the error, if any. -/
def encodeStartError (s : State) : Option ErrorCode :=
  if !channelsLegal s.channels then some .invalidImage
  else if !colorspaceLegal s.colorspace then some .invalidImage
  else if s.width = 0 ∨ s.height = 0 then some .invalidImage
  else if s.inLen ≠ pixelCount s then some .invalidImage
  else if pixelCount s > s.params.maxPixels then some .capacity
  else none

/-- The room of OBUF that R150 asks of the host: 22 + 5 * W * H bytes (R35, R69). -/
def obufRoomNeeded (s : State) : Nat := 22 + 5 * pixelCount s

/-- The start step of an accepted START_ENCODE (R100). -/
def startEncode (s : State) : Host.Outcome State Fault Refusal :=
  let t := acceptStart .encode s
  match encodeStartError t with
  | some e => .next (raiseError e t)
  | none =>
    if t.obufCap < obufRoomNeeded t then .refused .outputBufferTooSmall
    else .next (emit (packHeader t.params.magic.toList t.width t.height t.channels t.colorspace) (beginCall 0 t))

/-- Emit a constructed record, or pass on the constructor's error (R99). -/
def emitRecord (r : Except ErrorCode (List Byte)) (s : State) : Except ErrorCode State :=
  match r with
  | .ok bs => .ok (emit bs s)
  | .error e => .error e

/-- Emit the pending run as one RUN record and clear RUN (R103). -/
def emitRun (s : State) : Except ErrorCode State :=
  match emitRecord (opRUN s.run.toNat) s with
  | .ok t => .ok { t with run := 0 }
  | .error e => .error e

/-- Emit the pending run, if there is one (R103 b and c). -/
def flushRun (s : State) : Except ErrorCode State := if s.run = 0 then .ok s else emitRun s

/-- A pixel equal to PREV is absorbed into the run; the 62nd flushes it at once (R102, R103 a). -/
def absorbPixel (s : State) : Except ErrorCode State :=
  let t := { s with run := s.run + 1 }
  if t.run = 62 then emitRun t else .ok t

/-- The priority ladder for a pixel that differs from PREV: the record of the first check that matches
(R104 to R108, R112). -/
def ladder (s : State) (p : Pixel) : Instr :=
  let d := delta p s.prev
  if tableGet s.ht (pixelHash p) = p then .index (pixelHash p)
  else if diffOk p s.prev then .diff d.dr d.dg d.db
  else if lumaOk p s.prev then .luma d.dg (d.dr - d.dg) (d.db - d.dg)
  else if d.sameA then .rgb p.r p.g p.b
  else .rgba p.r p.g p.b p.a

/-- The table after a record for p: written unless the record is INDEX (R109). -/
def storeAfter (i : Instr) (p : Pixel) (ht : Vector Pixel 64) : Vector Pixel 64 :=
  match i with
  | .index _ => ht
  | .rgb _ _ _ | .rgba _ _ _ _ | .diff _ _ _ | .luma _ _ _ | .run _ => tablePut ht p

/-- A pixel that differs from PREV: flush the run, emit the ladder's record, store (R101, R155, R156). -/
def emitPixel (p : Pixel) (s : State) : Except ErrorCode State :=
  match flushRun s with
  | .error e => .error e
  | .ok t =>
    match emitRecord (construct (ladder t p)) t with
    | .error e => .error e
    | .ok u => .ok { u with ht := storeAfter (ladder t p) p u.ht }

/-- The pixel step: consume pixel CUR (R101, R110). -/
def pixelStep (s : State) : Host.Outcome State Fault Refusal :=
  let p := pixRead s s.cur
  settle s ((if p = s.prev then absorbPixel s else emitPixel p s).map fun t => { t with prev := p, cur := t.cur + 1 })

/-- The finish step of an encode call: the last run, then the sentinel (R111). -/
def finishEncode (s : State) : Host.Outcome State Fault Refusal :=
  settle s ((flushRun s).map fun t =>
    let u := emit t.params.sentinel.toList t
    { u with status := { u.status with state := .done } })

end Sys2Proof.Machine
end

