-- ==== Sys2Proof/Machine/Decoder.lean ====
section
/-!
DEFINITION. The decoder sequencer (spec/44_decoder.md R117 to R130): the start, the record step and the finish of a
decode call.
-/

namespace Sys2Proof.Machine

/-- The checks of the start of a decode call, in the order of R117 (R134): the header, or the error. -/
def decodeStartHeader (s : State) : Except ErrorCode Header :=
  if s.inLen < 14 then .error .malformedHeader
  else
    match unpackHeader (memRead s 0 14) with
    | .error e => .error e
    | .ok h =>
      if h.magic ≠ s.params.magic.toList then .error .malformedHeader
      else if !channelsLegal h.channels then .error .malformedHeader
      else if !colorspaceLegal h.colorspace then .error .malformedHeader
      else if h.width = 0 ∨ h.height = 0 then .error .malformedHeader
      else if !sentinelOk s then .error .badSentinel
      else if h.width.toNat * h.height.toNat > s.params.maxPixels then .error .capacity
      else .ok h

/-- The room of OPIX that R150 asks of the host: min(W * H, 62 * (N - 22)) pixels. -/
def opixRoomNeeded (h : Header) (n : Nat) : Nat := min (h.width.toNat * h.height.toNat) (62 * (n - 22))

/-- The start step of an accepted START_DECODE (R117, R118). -/
def startDecode (s : State) : Host.Outcome State Fault Refusal :=
  let t := acceptStart .decode s
  match decodeStartHeader t with
  | .error e => .next (raiseError e t)
  | .ok h =>
    if t.opixCap < opixRoomNeeded h t.inLen then .refused .outputBufferTooSmall
    else
      .next (beginCall 14
        { t with width := h.width, height := h.height, channels := h.channels, colorspace := h.colorspace })

/-- The offset of the first sentinel byte, where the opcode stream ends: N - 8 (R68, R119). -/
def streamEnd (s : State) : Nat := s.inLen - 8

/-- The record step: fetch, check and execute the record at CUR (R119). The decoder is given exactly the record's
bytes, so it never rejects them. -/
def recordStep (s : State) : Host.Outcome State Fault Refusal :=
  if s.cur ≥ streamEnd s then .next (raiseError .truncatedStream s)
  else
    let ln := (kind (readIbuf s s.cur)).length
    if s.cur + ln > streamEnd s then .next (raiseError .truncatedStream s)
    else
      match decode (memRead s s.cur ln) with
      | .ok (i, _) => exec i s
      | .error _ => .next (raiseError .truncatedStream s)

/-- The finish step of a decode call: no record byte may be left (R124). -/
def finishDecode (s : State) : Host.Outcome State Fault Refusal :=
  if s.cur ≠ streamEnd s then .next (raiseError .dimensionMismatch s)
  else .next { s with status := { s.status with state := .done } }

end Sys2Proof.Machine
end

