-- ==== Sys2Proof/Machine/Engine.lean ====
section
/-!
DEFINITION. One step of the codec engine: whichever of the steps of spec/43_encoder.md and spec/44_decoder.md is enabled.
-/

namespace Sys2Proof.Machine

/-- The engine's step in an encode call (R101, R111). No step is enabled past IN_LEN, which no call reaches
(notes/assumptions/9.md). -/
def encodeCallStep (s : State) : Host.Outcome State Fault Refusal :=
  if s.cur < s.inLen then pixelStep s
  else if s.cur = s.inLen then finishEncode s
  else .next s

/-- The engine's step in a decode call (R119, R124). No step is enabled past W*H pixels, which no call reaches
(notes/assumptions/9.md). -/
def decodeCallStep (s : State) : Host.Outcome State Fault Refusal :=
  if s.outLen < pixelCount s then recordStep s
  else if s.outLen = pixelCount s then finishDecode s
  else .next s

/-- The engine's step. In IDLE, DONE and ERROR it takes none and every register keeps its value (R146, U15). -/
def engineStep (s : State) : Host.Outcome State Fault Refusal :=
  match s.status.state, s.status.mode with
  | .busy, .encode => encodeCallStep s
  | .busy, .decode => decodeCallStep s
  | .idle, _ | .done, _ | .error, _ => .next s

end Sys2Proof.Machine
end

