-- ==== Sys2Proof/Machine/Flags.lean ====
section
/-!
DEFINITION. The STATUS register as the host reads it (spec/10_state.md R18) and the numbers of the error codes
(spec/60_exceptions.md R132). The block has no condition flags: no record writes any (R16, spec/42_opcodes.md).
-/

namespace Sys2Proof.Machine

/-- The code of an error in STATUS.ERR (R132). -/
def errorNumber : ErrorCode → BitVec 4
  | .none => 0
  | .malformedHeader => 1
  | .badSentinel => 2
  | .truncatedStream => 3
  | .dimensionMismatch => 4
  | .invalidImage => 5
  | .outOfRangePayload => 6
  | .marshalArg => 7
  | .capacity => 8

/-- The number of a call state in STATUS.STATE (R18). -/
def stateNumber : CallState → BitVec 2
  | .idle => 0
  | .busy => 1
  | .done => 2
  | .error => 3

/-- The number of a mode in STATUS.MODE (R18). -/
def modeNumber : Mode → BitVec 1
  | .encode => 0
  | .decode => 1

/-- STATUS as one byte: ERR in bits 7:4, bit 3 reserved and 0, MODE in bit 2, STATE in bits 1:0 (R18, U10). -/
def statusWord (st : Status) : Byte := errorNumber st.err ++ 0b0#1 ++ modeNumber st.mode ++ stateNumber st.state

end Sys2Proof.Machine
end

