-- ==== Sys2Proof/Machine/HostPort.lean ====
section
/-!
DEFINITION. The host's side of the block (spec/70_reset_and_hazards.md R150 to R154, spec/10_state.md R17 to R24): what each
host action does, and what the host reads.
-/

namespace Sys2Proof.Machine

/-- A call is running. -/
def isBusy (s : State) : Bool := decide (s.status.state = .busy)

/-- A call of this mode is running, so its buffers are in use (R46, R154). -/
def inCall (m : Mode) (s : State) : Bool := isBusy s && decide (s.status.mode = m)

/-- A host write that R154 forbids where `forbidden` holds: U2 of spec/93_implementation_defined.md, `refuse`. -/
def hostWrite (forbidden : Bool) (t : State) : Host.Outcome State Fault Refusal :=
  if forbidden then .refused .hostWroteWhileBusy else .next t

/-- A command on the CMD input. RESET is always accepted; a start command is accepted unless BUSY, and otherwise
changes no state (R17, R135, R147). -/
def acceptCommand (c : Command) (s : State) : Host.Outcome State Fault Refusal :=
  match c with
  | .reset => .next (resetRegisters s)
  | .startEncode => if isBusy s then .next s else startEncode s
  | .startDecode => if isBusy s then .next s else startDecode s

/-- One host action, between two steps of the engine; with `pause` the engine takes its step. DESIGN CHOICE: providing another
OBUF or OPIX, which R150 speaks of only while not BUSY, is refused like a write while the call that uses the buffer runs, and
takes effect during a call of the other mode (notes/assumptions/27.md). -/
def hostStep (a : HostAction) (s : State) : Host.Outcome State Fault Refusal :=
  match a with
  | .pause => engineStep s
  | .command c => acceptCommand c s
  | .hardwareReset => .next (resetRegisters s)
  | .writeStatus _ => .next s
  | .writeWidth v => hostWrite (isBusy s) { s with width := v }
  | .writeHeight v => hostWrite (isBusy s) { s with height := v }
  | .writeChannels v => hostWrite (isBusy s) { s with channels := v }
  | .writeColorspace v => hostWrite (isBusy s) { s with colorspace := v }
  | .writeInLen n => hostWrite (isBusy s) { s with inLen := n }
  | .writeIbuf a v => hostWrite (inCall .decode s) { s with mem := { s.mem with ibuf := writeCell s.mem.ibuf a v } }
  | .writeIpix i p => hostWrite (inCall .encode s) { s with mem := { s.mem with ipix := writeCell s.mem.ipix i p } }
  | .provideObuf n => hostWrite (inCall .encode s) { s with obufCap := n, mem := { s.mem with obuf := [] } }
  | .provideOpix n => hostWrite (inCall .decode s) { s with opixCap := n, mem := { s.mem with opix := [] } }
  | .writeObuf a v => hostWrite (inCall .encode s) { s with mem := { s.mem with obuf := writeCell s.mem.obuf a v } }
  | .writeOpix i p => hostWrite (inCall .decode s) { s with mem := { s.mem with opix := writeCell s.mem.opix i p } }

/-- The host's read of STATUS (R18, R152). -/
def hostReadStatus (s : State) : Byte := statusWord s.status

/-- The host's read of OUT_LEN: valid unless a call is running, when the value is free (R24; notes/assumptions/15.md). -/
def hostReadOutLen (s : State) : Nat := if isBusy s then Config.freeOutLen s.epoch s.cur else s.outLen

/-- The outputs of a call of this mode are readable: it ended in DONE (R46, R153). -/
def outputsReadable (m : Mode) (s : State) : Bool := decide (s.status.state = .done) && decide (s.status.mode = m)

/-- The host's read of OBUF: the stream once an encode call is DONE, a free value where the contents are unspecified
(R153, U1, U4, U5). -/
def hostReadObuf (s : State) (a : Nat) : Byte :=
  let free := Config.freeObufByte s.epoch s.cur a
  if outputsReadable .encode s && decide (a < s.outLen) then (readCell s.mem.obuf a).getD free else free

/-- The host's read of OPIX: the pixels once a decode call is DONE, a free value where the contents are unspecified
(R153, U1, U4, U5). -/
def hostReadOpix (s : State) (i : Nat) : Pixel :=
  let free := Config.freeOpixPixel s.epoch s.cur i
  if outputsReadable .decode s && decide (i < s.outLen) then (readCell s.mem.opix i).getD free else free

/-- The host's write of the four bytes of pixel idx of IPIX, lowest first (R33, R40). -/
def writeIpixBytes (idx : Nat) (b0 b1 b2 b3 : Byte) : HostAction := .writeIpix idx (pixelOfBytes b0 b1 b2 b3)

/-- The host's read of OPIX as the bytes its pixels are laid out in: pixel i lies at bytes 4i .. 4i+3, in the order of
R40 (R33). -/
def hostReadOpixByte (s : State) (addr : Nat) : Byte := pixelByte (hostReadOpix s (addr / 4)) (addr % 4)

/-- The index of the pixel in a column and row of an image of width w, row-major (R34). -/
def pixelIndex (w col row : Nat) : Nat := row * w + col

/-- The decoded pixel in a column and row, as the host reads it (R34, R125). -/
def hostReadImage (s : State) (col row : Nat) : Pixel := hostReadOpix s (pixelIndex s.width.toNat col row)

/-- A decode call is running that still has pixels to produce, so that the next step of the engine is a record step
(R119). -/
def awaitsRecord (s : State) : Bool := inCall .decode s && decide (s.outLen < pixelCount s)

/-- A decode call of a 64 x 1 image just after its start step, for a stream that is put in place from outside
(notes/assumptions/18.md). -/
def loadedCall (s : State) : State :=
  beginCall 14
    { s with
      status := ⟨.busy, .decode, .none⟩
      width := 64
      height := 1
      channels := 4
      colorspace := 0
      inLen := 0
      opixCap := max s.opixCap 64 }

/-- Put the bytes of a record where the next record is fetched: at CUR of the running decode call, or of a call set up
for it, with the stream long enough and the host idle (notes/assumptions/18.md). -/
def placeRecord (bs : List Byte) (s : State) : State :=
  let t := if awaitsRecord s then s else loadedCall s
  { t with
    mem := { t.mem with ibuf := writeCells t.mem.ibuf t.cur bs }
    inLen := max t.inLen (t.cur + bs.length + 8)
    inbox := [] }

end Sys2Proof.Machine
end

