-- ==== Sys2Proof/Machine/Step.lean ====
section
/-!
DEFINITION. One step of the block: the host's next action, or, when the host does nothing, a step of the engine
(spec/10_state.md R14; notes/assumptions/2.md).
-/

namespace Sys2Proof.Machine

/-- One step of the machine. -/
def step (s : State) : Host.Outcome State Fault Refusal :=
  match s.inbox with
  | [] => engineStep s
  | a :: rest => hostStep a { s with inbox := rest }

/-- `s` with the instruction of a word of the opcode table stored where the next record is fetched, in a decode call
(notes/assumptions/18.md). -/
def State.withFetchWord (s : State) (nbits w : Nat) : State := placeRecord (tableBytes nbits w) s

end Sys2Proof.Machine
end

