-- ==== Sys2Proof/Machine/Assembler.lean ====
section
/-!
DEFINITION. The assembler syntax of the spec (spec/30_encoding.md R70, R71) and the bytes a program in it stands for.
-/

namespace Sys2Proof.Machine

/-- A line of a program: a record, or one of the two directives (R70, R71). -/
inductive AsmLine where
  /-- A record with its logical operands. -/
  | record (i : Instr)
  /-- `.qoi W, H, CH, CS`: the header. -/
  | qoi (w h : Word32) (ch cs : Byte)
  /-- `.end`: the sentinel. -/
  | endMark
deriving DecidableEq, Repr

/-- The mnemonic of a record: its kind's name (R70). -/
def mnemonic : Instr → String
  | .rgb _ _ _ => "RGB"
  | .rgba _ _ _ _ => "RGBA"
  | .index _ => "INDEX"
  | .diff _ _ _ => "DIFF"
  | .luma _ _ _ => "LUMA"
  | .run _ => "RUN"

/-- The operands of a record in the order they are written (R70). -/
def asmOperands : Instr → List Int
  | .rgb r g b => [r.toNat, g.toNat, b.toNat]
  | .rgba r g b a => [r.toNat, g.toNat, b.toNat, a.toNat]
  | .index k => [k.val]
  | .diff dr dg db => [dr, dg, db]
  | .luma dg drg dbg => [dg, drg, dbg]
  | .run n => [n]

/-- Operands in decimal, with commas between them (R70). -/
def operandText (xs : List Int) : String := String.intercalate ", " (xs.map toString)

/-- A line as text (R70, R71). -/
def asmText : AsmLine → String
  | .record i => mnemonic i ++ " " ++ operandText (asmOperands i)
  | .qoi w h ch cs => ".qoi " ++ operandText [w.toNat, h.toNat, ch.toNat, cs.toNat]
  | .endMark => ".end"

/-- The bytes of a line: exactly one record, the header or the sentinel (R71). -/
def assembleLine (ps : Config.Params) : AsmLine → Except ErrorCode (List Byte)
  | .record i => construct i
  | .qoi w h ch cs => .ok (packHeader ps.magic.toList w h ch cs)
  | .endMark => .ok ps.sentinel.toList

/-- The bytes of a program, or the error of its first illegal line. -/
def assemble (ps : Config.Params) : List AsmLine → Except ErrorCode (List Byte)
  | [] => .ok []
  | l :: rest =>
    match assembleLine ps l with
    | .error e => .error e
    | .ok bs =>
      match assemble ps rest with
      | .error e => .error e
      | .ok more => .ok (bs ++ more)

end Sys2Proof.Machine
end

