-- ==== Sys2Proof/Safety.lean ====
section
/-!
DEFINITION. The terms the claims use: the invariant of the block, the host that keeps its side of the protocol, and what
it means to produce a pixel, to enter an error, to hold bytes in a buffer.
-/

namespace Sys2Proof.Machine

/-- The table is direct-mapped: a slot holds (0,0,0,0), as at the start of a call, or a pixel of its own hash (R29). -/
def tableDirectMapped (ht : Vector Pixel 64) : Prop := ∀ k : Slot, ht[k] = Config.zeroPixel ∨ pixelHash ht[k] = k

/-- Exactly the first `n` cells of a buffer are known. -/
def filledTo {α : Type} (m : List (Nat × α)) (n : Nat) : Prop := ∀ a, (readCell m a).isSome ↔ a < n

/-- The image registers describe an image the block accepts (R19 to R22, R100, R117). -/
structure ImageLegal (s : State) : Prop where
  channels : channelsLegal s.channels
  colorspace : colorspaceLegal s.colorspace
  width : s.width ≠ 0
  height : s.height ≠ 0
  capacity : pixelCount s ≤ s.params.maxPixels

/-- Between two steps of a running encode call. -/
structure EncodeCallInv (s : State) : Prop where
  image : ImageLegal s
  /-- The start check of R100. -/
  inLen : s.inLen = pixelCount s
  /-- R27. -/
  cur : s.cur ≤ s.inLen
  /-- R25: PREV is the last pixel consumed, or the start pixel. -/
  prev : s.prev = if s.cur = 0 then Config.startPixel else pixRead s (s.cur - 1)
  /-- R26: the pending run's pixels are among those consumed. -/
  pending : s.run.toNat ≤ s.cur
  /-- R26: a pending run's pixels all equal PREV. -/
  pendingEqual : ∀ j, j < s.cur → s.cur ≤ j + s.run.toNat → pixRead s j = s.prev
  /-- R35: every byte up to OUT_LEN is written, and no other. -/
  filled : filledTo s.mem.obuf s.outLen
  /-- R69: at most 5 bytes for each pixel whose record is out. -/
  atMost : s.outLen + 5 * s.run.toNat ≤ 14 + 5 * s.cur
  /-- R69: each byte of a record accounts for at most 62 pixels. -/
  atLeast : 14 * 62 + s.cur ≤ 62 * s.outLen + s.run.toNat
  /-- R150. -/
  room : obufRoomNeeded s ≤ s.obufCap

/-- Between two steps of a running decode call. -/
structure DecodeCallInv (s : State) : Prop where
  image : ImageLegal s
  /-- R117: the sentinel lies after the header. -/
  inLen : 22 ≤ s.inLen
  /-- R27: CUR is 14 .. N - 8. -/
  curLow : 14 ≤ s.cur
  curHigh : s.cur + 8 ≤ s.inLen
  /-- No record writes past W*H pixels (R98, R119). -/
  outLen : s.outLen ≤ pixelCount s
  /-- R26: the decoder does not use RUN. -/
  run : s.run = 0
  /-- R36: every pixel up to OUT_LEN is written, and no other. -/
  filled : filledTo s.mem.opix s.outLen
  /-- R122: PREV is the last pixel produced, or the start pixel. -/
  prev : if s.outLen = 0 then s.prev = Config.startPixel else readCell s.mem.opix (s.outLen - 1) = some s.prev
  /-- R69: a record has at most 5 bytes and produces a pixel. -/
  atMost : s.cur ≤ 14 + 5 * s.outLen
  /-- R150: a record byte produces at most 62 pixels. -/
  atLeast : s.outLen + 14 * 62 ≤ 62 * s.cur
  /-- R150. -/
  room : min (pixelCount s) (62 * (s.inLen - 22)) ≤ s.opixCap

/-- The invariant of the block. -/
structure Inv (s : State) : Prop where
  memory : s.mem.wf
  /-- R29. -/
  table : tableDirectMapped s.ht
  /-- R18: ERR is 0 unless STATE is ERROR, and then it is an error's code. -/
  err : s.status.err = .none ↔ s.status.state ≠ .error
  /-- R32, R136: OUT_LEN is 0 after reset and after an error. -/
  noOutput : s.status.state = .idle ∨ s.status.state = .error → s.outLen = 0
  /-- R26, R103: a run of 62 is flushed in the step that completes it. -/
  run : s.run.toNat ≤ 61
  encodeCall : inCall .encode s → EncodeCallInv s
  decodeCall : inCall .decode s → DecodeCallInv s

/-- A host action that R154 allows in this state; for `provideObuf` and `provideOpix`, which R154 does not name, the model's choice
(notes/assumptions/27.md). -/
def allowedByHost : HostAction → State → Bool
  | .writeWidth _, s | .writeHeight _, s | .writeChannels _, s | .writeColorspace _, s | .writeInLen _, s => !isBusy s
  | .writeIbuf _ _, s | .provideOpix _, s | .writeOpix _ _, s => !inCall .decode s
  | .writeIpix _ _, s | .provideObuf _, s | .writeObuf _ _, s => !inCall .encode s
  | .pause, _ | .command _, _ | .hardwareReset, _ | .writeStatus _, _ => true

/-- The host does nothing from here on, so that every step is the engine's. -/
def hostQuiet (s : State) : Prop := s.inbox = []

/-- The call has ended. -/
def callEnded (s : State) : Prop := s.status.state = .done ∨ s.status.state = .error

/-- A buffer holds these values from address `a` on. -/
def holdsAt {α : Type} (m : List (Nat × α)) (a : Nat) (vs : List α) : Prop :=
  ∀ i, i < vs.length → readCell m (a + i) = vs[i]?

/-- `m'` reads as `m` outside the `n` cells from `a` on. -/
def sameOutside {α : Type} (m m' : List (Nat × α)) (a n : Nat) : Prop :=
  ∀ x, (x < a ∨ a + n ≤ x) → readCell m' x = readCell m x

/-- Nothing is known of what the output buffers hold: every read of the host gives a free value (U1, U4, U5;
notes/assumptions/4.md). -/
structure OutputsUnspecified (s : State) : Prop where
  bytes : ∀ a, hostReadObuf s a = Config.freeObufByte s.epoch s.cur a
  pixels : ∀ i, hostReadOpix s i = Config.freeOpixPixel s.epoch s.cur i
  noBytes : ∀ a, readCell s.mem.obuf a = none
  noPixels : ∀ i, readCell s.mem.opix i = none

/-- `t` is `s` after a record of `len` bytes that produces the one pixel `px` (R93 to R97): OPIX at OUT_LEN, OUT_LEN, the
slot of the pixel's hash, PREV and CUR are written and nothing else is. -/
structure ProducesPixel (px : Pixel) (len : Nat) (s t : State) : Prop where
  written : readCell t.mem.opix s.outLen = some px
  otherPixels : sameOutside s.mem.opix t.mem.opix s.outLen 1
  outLen : t.outLen = s.outLen + 1
  table : ∀ k : Slot, t.ht[k] = if k = pixelHash px then px else s.ht[k]
  prev : t.prev = px
  cur : t.cur = s.cur + len
  frame : t = { s with
    mem := { s.mem with opix := t.mem.opix }, outLen := t.outLen, ht := t.ht, prev := t.prev, cur := t.cur }

/-- `t` is `s` after the error `e` of a call of mode `m` (R136): STATUS, OUT_LEN and on decode the image registers are
written, what the output buffers hold is unspecified, no byte or pixel of the failing step is written to them (R131), and
nothing else is changed. -/
structure EntersError (e : ErrorCode) (m : Mode) (s t : State) : Prop where
  status : t.status = ⟨.error, m, e⟩
  outLen : t.outLen = 0
  decodeImage : m = .decode → t.width = 0 ∧ t.height = 0 ∧ t.channels = 0 ∧ t.colorspace = 0
  encodeImage : m = .encode →
    t.width = s.width ∧ t.height = s.height ∧ t.channels = s.channels ∧ t.colorspace = s.colorspace
  noOutput : (∀ a b, readCell t.mem.obuf a = some b → readCell s.mem.obuf a = some b) ∧
    ∀ i p, readCell t.mem.opix i = some p → readCell s.mem.opix i = some p
  inputs : t.mem.ibuf = s.mem.ibuf ∧ t.mem.ipix = s.mem.ipix ∧ t.inLen = s.inLen
  kept : t.prev = s.prev ∧ t.run = s.run ∧ t.cur = s.cur ∧ t.ht = s.ht
  rest : t.params = s.params ∧ t.obufCap = s.obufCap ∧ t.opixCap = s.opixCap ∧ t.inbox = s.inbox

end Sys2Proof.Machine
end

