-- ==== Sys2Proof/Certificates/Slice0/Obligations.lean ====
section
/-!
DEFINITION. The statements about the block, each from a rule of spec/. OBLIGATIONS.json lists them.
-/

open Sys2Proof Sys2Proof.Machine

/-! ### The six records (spec/42_opcodes.md) -/

/-- R93: RGB takes the payload and PREV's alpha, and its constructor takes exactly three bytes. -/
def Obligations.RgbRecord : Prop :=
  (∀ r g b : Byte, opRGB [r, g, b] = .ok [0xFE, r, g, b]) ∧
  (∀ payload : List Byte, payload.length ≠ 3 → opRGB payload = .error .outOfRangePayload) ∧
  ∀ (r g b : Byte) (s : State), ∃ t, exec (.rgb r g b) s = .next t ∧ ProducesPixel ⟨r, g, b, s.prev.a⟩ 4 s t

/-- R94: RGBA takes the payload, and its constructor takes exactly four bytes. -/
def Obligations.RgbaRecord : Prop :=
  (∀ r g b a : Byte, opRGBA [r, g, b, a] = .ok [0xFF, r, g, b, a]) ∧
  (∀ payload : List Byte, payload.length ≠ 4 → opRGBA payload = .error .outOfRangePayload) ∧
  ∀ (r g b a : Byte) (s : State), ∃ t, exec (.rgba r g b a) s = .next t ∧ ProducesPixel ⟨r, g, b, a⟩ 5 s t

/-- R95: INDEX produces the contents of its slot and stores them in the slot of their hash; a slot never stored yields
(0,0,0,0), which goes to slot 0. -/
def Obligations.IndexRecord : Prop :=
  (∀ k : Int, 0 ≤ k → k ≤ 63 → opINDEX k = .ok [BitVec.ofInt 8 k]) ∧
  (∀ k : Int, k < 0 ∨ 63 < k → opINDEX k = .error .outOfRangePayload) ∧
  (∀ (k : Slot) (s : State), ∃ t, exec (.index k) s = .next t ∧ ProducesPixel s.ht[k] 1 s t) ∧
  pixelHash Config.zeroPixel = 0

/-- R96: DIFF moves each colour channel of PREV by its delta modulo 256 and keeps alpha. -/
def Obligations.DiffRecord : Prop :=
  (∀ dr dg db : Int, -2 ≤ dr ∧ dr ≤ 1 ∧ -2 ≤ dg ∧ dg ≤ 1 ∧ -2 ≤ db ∧ db ≤ 1 →
    opDIFF dr dg db = .ok [BitVec.ofInt 8 (0x40 + (dr + 2) * 16 + (dg + 2) * 4 + (db + 2))]) ∧
  (∀ dr dg db : Int, ¬(-2 ≤ dr ∧ dr ≤ 1 ∧ -2 ≤ dg ∧ dg ≤ 1 ∧ -2 ≤ db ∧ db ≤ 1) →
    opDIFF dr dg db = .error .outOfRangePayload) ∧
  ∀ (dr dg db : Int) (s : State), -2 ≤ dr ∧ dr ≤ 1 ∧ -2 ≤ dg ∧ dg ≤ 1 ∧ -2 ≤ db ∧ db ≤ 1 →
    ∃ t, exec (.diff dr dg db) s = .next t ∧
      ProducesPixel
        ⟨s.prev.r + BitVec.ofInt 8 dr, s.prev.g + BitVec.ofInt 8 dg, s.prev.b + BitVec.ofInt 8 db, s.prev.a⟩ 1 s t

/-- R97: LUMA moves green by dG, red by dG + (dR - dG) and blue by dG + (dB - dG), modulo 256, and keeps alpha. -/
def Obligations.LumaRecord : Prop :=
  (∀ dg drg dbg : Int, -32 ≤ dg ∧ dg ≤ 31 ∧ -8 ≤ drg ∧ drg ≤ 7 ∧ -8 ≤ dbg ∧ dbg ≤ 7 →
    opLUMA dg drg dbg = .ok [BitVec.ofInt 8 (0x80 + (dg + 32)), BitVec.ofInt 8 ((drg + 8) * 16 + (dbg + 8))]) ∧
  (∀ dg drg dbg : Int, ¬(-32 ≤ dg ∧ dg ≤ 31 ∧ -8 ≤ drg ∧ drg ≤ 7 ∧ -8 ≤ dbg ∧ dbg ≤ 7) →
    opLUMA dg drg dbg = .error .outOfRangePayload) ∧
  ∀ (dg drg dbg : Int) (s : State), -32 ≤ dg ∧ dg ≤ 31 ∧ -8 ≤ drg ∧ drg ≤ 7 ∧ -8 ≤ dbg ∧ dbg ≤ 7 →
    ∃ t, exec (.luma dg drg dbg) s = .next t ∧
      ProducesPixel
        ⟨s.prev.r + BitVec.ofInt 8 (dg + drg), s.prev.g + BitVec.ofInt 8 dg, s.prev.b + BitVec.ofInt 8 (dg + dbg), s.prev.a⟩
        2 s t

/-- R98, R123: RUN, for every count 1 to 62, writes PREV n times at OUT_LEN, or, when that would pass W*H pixels, raises
DIMENSION_MISMATCH and writes none of it: every pixel of OPIX that is known afterwards was known with that value before. Only
OPIX, OUT_LEN and CUR are written by a run that fits. -/
def Obligations.RunRecord : Prop :=
  (∀ n : Int, 1 ≤ n → n ≤ 62 → opRUN n = .ok [BitVec.ofInt 8 (0xC0 + (n - 1))]) ∧
  (∀ n : Int, n < 1 ∨ 62 < n → opRUN n = .error .outOfRangePayload) ∧
  (∀ (n : Nat) (s : State), 1 ≤ n ∧ n ≤ 62 → s.outLen + n ≤ s.width.toNat * s.height.toNat →
    ∃ t, exec (.run n) s = .next t ∧
      (∀ j, j < n → readCell t.mem.opix (s.outLen + j) = some s.prev) ∧
      sameOutside s.mem.opix t.mem.opix s.outLen n ∧
      t = { s with
        mem := { s.mem with opix := t.mem.opix }, outLen := s.outLen + n, cur := s.cur + 1 }) ∧
  ∀ (n : Nat) (s : State), 1 ≤ n ∧ n ≤ 62 → s.width.toNat * s.height.toNat < s.outLen + n →
    ∃ t, exec (.run n) s = .next t ∧ EntersError .dimensionMismatch s.status.mode s t ∧
      ∀ i p, readCell t.mem.opix i = some p → readCell s.mem.opix i = some p

/-- Every legal record completes, whatever the state, where its pixels (n for RUN n, else one) fit into W*H: it answers a next
state of the running call, CUR further by the record's length and OUT_LEN by its pixels (R93 to R98, R119, R128). -/
def Obligations.EveryRecordCompletes : Prop :=
  ∀ (i : Instr) (s : State), i.wellFormed →
    let n := match i with
      | .run n => n
      | .rgb _ _ _ | .rgba _ _ _ _ | .index _ | .diff _ _ _ | .luma _ _ _ => 1
    s.outLen + n ≤ s.width.toNat * s.height.toNat →
    ∃ t, exec i s = .next t ∧ t.status = s.status ∧ t.cur = s.cur + i.length ∧ t.outLen = s.outLen + n ∧
      readCell t.mem.opix (s.outLen + n - 1) = some t.prev ∧ sameOutside s.mem.opix t.mem.opix s.outLen n

/-- R33, R49: whatever record runs, the block writes no input buffer, no input length, no parameter and not RUN; while the
call goes on it writes no byte of OBUF. -/
def Obligations.RecordsWriteNoInput : Prop :=
  ∀ (i : Instr) (s t : State), exec i s = .next t →
    t.mem.ibuf = s.mem.ibuf ∧ t.mem.ipix = s.mem.ipix ∧ t.inLen = s.inLen ∧ t.params = s.params ∧
      t.run = s.run ∧ t.inbox = s.inbox ∧ t.status.mode = s.status.mode ∧
      (t.status.state = .busy → t.mem.obuf = s.mem.obuf ∧ t.status = s.status)

/-! ### The units -/

/-- R81, R82, R83: the hash formula; the same with channels read as signed; every slot is reached. -/
def Obligations.HashFormula : Prop :=
  (∀ p : Pixel, (pixelHash p).val = (3 * p.r.toNat + 5 * p.g.toNat + 7 * p.b.toNat + 11 * p.a.toNat) % 64) ∧
  (∀ p : Pixel, ((pixelHash p).val : Int) = (3 * p.r.toInt + 5 * p.g.toInt + 7 * p.b.toInt + 11 * p.a.toInt) % 64) ∧
  ∀ k : Slot, ∃ a : Byte, pixelHash ⟨0, 0, 0, a⟩ = k

/-- R84, R85, R86: a stored pixel is found in the slot of its hash until another of that hash is stored, and no other
slot changes. -/
def Obligations.HistoryFidelity : Prop :=
  ∀ (ht : Vector Pixel 64) (p : Pixel),
    tableGet (tablePut ht p) (pixelHash p) = p ∧
    (∀ k, k ≠ pixelHash p → tableGet (tablePut ht p) k = tableGet ht k) ∧
    (∀ q, pixelHash q ≠ pixelHash p → tableGet (tablePut (tablePut ht p) q) (pixelHash p) = p) ∧
    (tableGet ht (pixelHash p) = p → tablePut ht p = ht)

/-- R88, R89, R90: the range checks on the wrapped deltas; for LUMA the differences may as well be taken modulo 256. -/
def Obligations.DeltaChecks : Prop :=
  ∀ p q : Pixel,
    (delta p q).dr = (p.r - q.r).toInt ∧ (delta p q).dg = (p.g - q.g).toInt ∧ (delta p q).db = (p.b - q.b).toInt ∧
    ((delta p q).sameA ↔ p.a = q.a) ∧
    (diffOk p q ↔ p.a = q.a ∧ (-2 ≤ (p.r - q.r).toInt ∧ (p.r - q.r).toInt ≤ 1) ∧
      (-2 ≤ (p.g - q.g).toInt ∧ (p.g - q.g).toInt ≤ 1) ∧ (-2 ≤ (p.b - q.b).toInt ∧ (p.b - q.b).toInt ≤ 1)) ∧
    (lumaOk p q ↔ p.a = q.a ∧ (-32 ≤ (p.g - q.g).toInt ∧ (p.g - q.g).toInt ≤ 31) ∧
      (-8 ≤ (p.r - q.r).toInt - (p.g - q.g).toInt ∧ (p.r - q.r).toInt - (p.g - q.g).toInt ≤ 7) ∧
      (-8 ≤ (p.b - q.b).toInt - (p.g - q.g).toInt ∧ (p.b - q.b).toInt - (p.g - q.g).toInt ≤ 7)) ∧
    (lumaOk p q ↔ p.a = q.a ∧ (-32 ≤ (p.g - q.g).toInt ∧ (p.g - q.g).toInt ≤ 31) ∧
      (-8 ≤ ((p.r - q.r) - (p.g - q.g)).toInt ∧ ((p.r - q.r) - (p.g - q.g)).toInt ≤ 7) ∧
      (-8 ≤ ((p.b - q.b) - (p.g - q.g)).toInt ∧ ((p.b - q.b) - (p.g - q.g)).toInt ≤ 7))

/-- R91, R92: reconstruction adds the deltas modulo 256 and keeps alpha; it undoes the delta, so every delta record
the encoder builds decodes to its pixel. -/
def Obligations.ReconUndoesDelta : Prop :=
  (∀ (q : Pixel) (dr dg db : Int), recon q dr dg db =
    ⟨q.r + BitVec.ofInt 8 dr, q.g + BitVec.ofInt 8 dg, q.b + BitVec.ofInt 8 db, q.a⟩) ∧
  ∀ p q : Pixel, p.a = q.a →
    recon q (delta p q).dr (delta p q).dg (delta p q).db = p ∧
    diffPixel q (delta p q).dr (delta p q).dg (delta p q).db = p ∧
    lumaPixel q (delta p q).dg ((delta p q).dr - (delta p q).dg) ((delta p q).db - (delta p q).dg) = p

/-- R72, R73, R74: big-endian packing and unpacking of a 32-bit integer are inverse, and a wrong length raises
MARSHAL_ARG. -/
def Obligations.Int32RoundTrip : Prop :=
  (∀ v : Int, toInt32be (fromInt32be v) = .ok (BitVec.ofInt 32 v)) ∧
  (∀ (b : List Byte) (w : Word32), toInt32be b = .ok w →
    fromInt32be w.toNat = b ∧ fromInt32be w.toInt = b ∧ toS32 w = w.toInt ∧ toU32 w = w.toNat) ∧
  (∀ b : List Byte, b.length = 4 → ∃ w, toInt32be b = .ok w ∧ w.toNat =
    (b.getD 0 0).toNat * 2 ^ 24 + (b.getD 1 0).toNat * 2 ^ 16 + (b.getD 2 0).toNat * 2 ^ 8 + (b.getD 3 0).toNat) ∧
  ∀ b : List Byte, b.length ≠ 4 → toInt32be b = .error .marshalArg

/-- R75, R76: concat joins its parts in order; extract gives exactly the bytes of the sub-range when it lies in the input and raises MARSHAL_ARG
otherwise, and it takes a part back out of a concatenation. -/
def Obligations.ConcatExtract : Prop :=
  (concat [] = [] ∧ ∀ (part : List Byte) (parts : List (List Byte)), concat (part :: parts) = part ++ concat parts) ∧
  (∀ parts : List (List Byte), (concat parts).length = (parts.map List.length).sum) ∧
  (∀ (input : List Byte) (start length : Int), 0 ≤ start → 0 ≤ length → start + length ≤ input.length →
    ∃ out, extract input start length = .ok out ∧ (out.length : Int) = length ∧
      ∀ i : Nat, (i : Int) < length → out[i]? = input[start.toNat + i]?) ∧
  (∀ (input : List Byte) (start length : Int), start < 0 ∨ length < 0 ∨ start + length > input.length →
    extract input start length = .error .marshalArg) ∧
  ∀ a b c : List Byte, extract (concat [a, b, c]) a.length b.length = .ok b

/-- R77: partition succeeds exactly when the sizes are not negative and sum to the length, and then its chunks have
those sizes and are the input, in order. -/
def Obligations.PartitionChunks : Prop :=
  ∀ (input : List Byte) (sizes : List Int),
    ((∀ n ∈ sizes, 0 ≤ n) ∧ sizes.sum = input.length →
      ∃ cs, partition input sizes = .ok cs ∧ concat cs = input ∧ cs.map (fun c => (c.length : Int)) = sizes) ∧
    (¬((∀ n ∈ sizes, 0 ≤ n) ∧ sizes.sum = input.length) → partition input sizes = .error .marshalArg)

/-- R78, R79: the header packs and unpacks to the same fields, and every 14 bytes unpack to fields that pack to them. -/
def Obligations.HeaderRoundTrip : Prop :=
  (∀ b : List Byte, b.length = 14 → ∃ h, unpackHeader b = .ok h ∧ h.magic.length = 4 ∧
    packHeader h.magic h.width h.height h.channels h.colorspace = b) ∧
  ∀ (magic : Vector Byte 4) (w h : Word32) (ch cs : Byte),
    (packHeader magic.toList w h ch cs).length = 14 ∧
    packHeader magic.toList w h ch cs = magic.toList ++ fromInt32be w.toNat ++ fromInt32be h.toNat ++ [ch, cs] ∧
    unpackHeader (packHeader magic.toList w h ch cs) = .ok ⟨magic.toList, w, h, ch, cs⟩

/-- R40: where a pixel is laid out as bytes, the order is R, G, B, A: in IPIX as the host writes it and the block reads it, in
OPIX as the host reads it, and in the payloads of the literals. That pixel i starts at byte 4i is the model's reading of R33
(notes/assumptions/12.md). -/
def Obligations.PixelByteOrder : Prop :=
  (∀ (s : State) (i : Nat) (b0 b1 b2 b3 : Byte) (rest : List HostAction), inCall .encode s = false →
    s.inbox = writeIpixBytes i b0 b1 b2 b3 :: rest →
    ∃ t, step s = .next t ∧ pixRead t i = ⟨b0, b1, b2, b3⟩ ∧
      [ipixByte t (4 * i), ipixByte t (4 * i + 1), ipixByte t (4 * i + 2), ipixByte t (4 * i + 3)] = [b0, b1, b2, b3]) ∧
  (∀ (s : State) (i : Nat),
    [ipixByte s (4 * i), ipixByte s (4 * i + 1), ipixByte s (4 * i + 2), ipixByte s (4 * i + 3)] =
      [(pixRead s i).r, (pixRead s i).g, (pixRead s i).b, (pixRead s i).a] ∧
    [hostReadOpixByte s (4 * i), hostReadOpixByte s (4 * i + 1), hostReadOpixByte s (4 * i + 2),
        hostReadOpixByte s (4 * i + 3)] =
      [(hostReadOpix s i).r, (hostReadOpix s i).g, (hostReadOpix s i).b, (hostReadOpix s i).a]) ∧
  ∀ p : Pixel, opRGB ((pixelBytes p).take 3) = .ok [0xFE, p.r, p.g, p.b] ∧
    opRGBA (pixelBytes p) = .ok [0xFF, p.r, p.g, p.b, p.a] ∧
    (∀ rest, decode (0xFE :: p.r :: p.g :: p.b :: rest) = .ok (.rgb p.r p.g p.b, rest)) ∧
    ∀ rest, decode (0xFF :: pixelBytes p ++ rest) = .ok (.rgba p.r p.g p.b p.a, rest)

/-! ### Encoding (spec/30_encoding.md) -/

/-- Words written out bit by bit from the encodings of R52 to R57 decode to the records they stand for. -/
def Obligations.WordsDecode : Prop :=
  decodeTableWord 32 0x1E140AFE = some (.rgb 10 20 30) ∧
  decodeTableWord 40 0x80281E14FF = some (.rgba 20 30 40 128) ∧
  decodeTableWord 8 0b00001001 = some (.index 9) ∧
  decodeTableWord 8 0b01110101 = some (.diff 1 (-1) (-1)) ∧
  decodeTableWord 16 0b0110100010101011 = some (.luma 11 (-2) 0) ∧
  decodeTableWord 8 0b11111101 = some (.run 62) ∧
  decodeTableWord 8 0b11000000 = some (.run 1)

/-- R58, R59, R60: the kind and length of a record from each range of byte 0. -/
def Obligations.FirstByteMap : Prop :=
  ∀ b : Byte,
    (b.toNat ≤ 0x3F → kind b = .index ∧ (kind b).length = 1) ∧
    (0x40 ≤ b.toNat ∧ b.toNat ≤ 0x7F → kind b = .diff ∧ (kind b).length = 1) ∧
    (0x80 ≤ b.toNat ∧ b.toNat ≤ 0xBF → kind b = .luma ∧ (kind b).length = 2) ∧
    (0xC0 ≤ b.toNat ∧ b.toNat ≤ 0xFD → kind b = .run ∧ (kind b).length = 1) ∧
    (b.toNat = 0xFE → kind b = .rgb ∧ (kind b).length = 4) ∧
    (b.toNat = 0xFF → kind b = .rgba ∧ (kind b).length = 5)

/-- R51 to R57, R61: decoding the encoding of any legal record, whatever follows it, gives the record back and leaves
what follows. -/
def Obligations.DecodeEncode : Prop :=
  ∀ (i : Instr) (rest : List Byte), i.wellFormed → decode (encode i ++ rest) = .ok (i, rest)

/-- R51, R63: no bit of a decoded record is dropped: it encodes back to the bytes it was decoded from. -/
def Obligations.EncodeDecode : Prop :=
  ∀ (bs rest : List Byte) (i : Instr), decode bs = .ok (i, rest) → encode i ++ rest = bs

/-- R62: every operand of a decoded record lies in its legal range, and every record with legal operands is decoded from
some bytes, so the fields cover their ranges exactly. -/
def Obligations.DecodedIsLegal : Prop :=
  (∀ (bs rest : List Byte) (i : Instr), decode bs = .ok (i, rest) → i.wellFormed) ∧
  ∀ i : Instr, i.wellFormed → ∃ bs, decode bs = .ok (i, [])

/-- R63, R65: a byte list is rejected only when it ends before the record its first byte announces does. -/
def Obligations.DecodeRejectsOnlyShort : Prop :=
  ∀ (b : Byte) (more : List Byte),
    ((kind b).length ≤ (b :: more).length →
      ∃ i, decode (b :: more) = .ok (i, (b :: more).drop (kind b).length) ∧ i.kind = kind b) ∧
    ((b :: more).length < (kind b).length → decode (b :: more) = .error (.truncated (kind b)))

/-- R70, R71: a program of one header, records and the end mark assembles to the header, the records' bytes in order
and the sentinel. -/
def Obligations.ProgramBytes : Prop :=
  ∀ (ps : Config.Params) (w h : Word32) (ch cs : Byte) (is : List Instr), (∀ i ∈ is, i.wellFormed) →
    assemble ps ([.qoi w h ch cs] ++ is.map .record ++ [.endMark]) =
      .ok (packHeader ps.magic.toList w h ch cs ++ (is.map encode).flatten ++ ps.sentinel.toList)

/-- R99: a constructor never clamps: a legal record gives its bytes and an illegal one OUT_OF_RANGE_PAYLOAD; and no
step of an encode call raises an error. -/
def Obligations.ConstructorsNeverClamp : Prop :=
  (∀ i : Instr, i.wellFormed → construct i = .ok (encode i)) ∧
  (∀ i : Instr, ¬i.wellFormed → construct i = .error .outOfRangePayload) ∧
  ∀ s t : State, Inv s → inCall .encode s → engineStep s = .next t → t.status.err = .none

/-! ### The host's side and reset -/

/-- R17: RESET is accepted in every state; a start command is accepted unless BUSY, and otherwise changes nothing but
that the command has been taken. -/
def Obligations.CommandAcceptance : Prop :=
  ∀ (s : State) (c : Command) (rest : List HostAction), s.inbox = .command c :: rest →
    (c = .reset → step s = .next (resetRegisters { s with inbox := rest })) ∧
    (s.status.state = .busy → c ≠ .reset → step s = .next { s with inbox := rest }) ∧
    (s.status.state ≠ .busy → c = .startEncode → step s = startEncode { s with inbox := rest }) ∧
    (s.status.state ≠ .busy → c = .startDecode → step s = startDecode { s with inbox := rest })

/-- R147: the RESET command and the hardware reset put every register at its reset value, whatever the state, and leave
the input buffers. -/
def Obligations.ResetPutsRegisters : Prop :=
  ∀ (s : State) (a : HostAction) (rest : List HostAction),
    a = .command .reset ∨ a = .hardwareReset → s.inbox = a :: rest →
    ∃ t, step s = .next t ∧
      t.status = ⟨.idle, .encode, .none⟩ ∧ t.width = 0 ∧ t.height = 0 ∧ t.channels = 0 ∧ t.colorspace = 0 ∧
      t.inLen = 0 ∧ t.outLen = 0 ∧ t.prev = ⟨0, 0, 0, 255⟩ ∧ t.run = 0 ∧ t.cur = 0 ∧
      (∀ k : Slot, t.ht[k] = ⟨0, 0, 0, 0⟩) ∧
      t.mem.ibuf = s.mem.ibuf ∧ t.mem.ipix = s.mem.ipix ∧ t.params = s.params ∧
      t.obufCap = s.obufCap ∧ t.opixCap = s.opixCap ∧ t.inbox = rest

/-- R32: the reset values. -/
def Obligations.ResetState : Prop :=
  State.reset.status = ⟨.idle, .encode, .none⟩ ∧ statusWord State.reset.status = 0 ∧
  State.reset.width = 0 ∧ State.reset.height = 0 ∧ State.reset.channels = 0 ∧ State.reset.colorspace = 0 ∧
  State.reset.inLen = 0 ∧ State.reset.outLen = 0 ∧ State.reset.prev = ⟨0, 0, 0, 255⟩ ∧ State.reset.run = 0 ∧
  State.reset.cur = 0 ∧ ∀ k : Slot, State.reset.ht[k] = ⟨0, 0, 0, 0⟩

/-- R18: the layout of STATUS as the host reads it; bit 3 reads 0 and ERR is 0 unless STATE is ERROR; a host's write to
it is ignored. -/
def Obligations.StatusRegister : Prop :=
  (∀ s : State, (hostReadStatus s).extractLsb' 0 2 = stateNumber s.status.state ∧
    (hostReadStatus s).extractLsb' 2 1 = modeNumber s.status.mode ∧
    (hostReadStatus s).extractLsb' 3 1 = 0 ∧ (hostReadStatus s).extractLsb' 4 4 = errorNumber s.status.err) ∧
  (stateNumber .idle = 0 ∧ stateNumber .busy = 1 ∧ stateNumber .done = 2 ∧ stateNumber .error = 3 ∧
    modeNumber .encode = 0 ∧ modeNumber .decode = 1) ∧
  (∀ s : State, Inv s → s.status.state ≠ .error → (hostReadStatus s).extractLsb' 4 4 = 0) ∧
  hostReadStatus State.reset = 0 ∧
  ∀ (s : State) (v : Byte) (rest : List HostAction), s.inbox = .writeStatus v :: rest →
    step s = .next { s with inbox := rest }

/-- R132: the numbers of the error codes; none is 9 to 15. -/
def Obligations.ErrorNumbers : Prop :=
  errorNumber .none = 0 ∧ errorNumber .malformedHeader = 1 ∧ errorNumber .badSentinel = 2 ∧
  errorNumber .truncatedStream = 3 ∧ errorNumber .dimensionMismatch = 4 ∧ errorNumber .invalidImage = 5 ∧
  errorNumber .outOfRangePayload = 6 ∧ errorNumber .marshalArg = 7 ∧ errorNumber .capacity = 8 ∧
  ∀ e : ErrorCode, (errorNumber e).toNat ≤ 8

/-- R136: what raising an error writes and keeps; afterwards the engine takes no step. -/
def Obligations.TrapEntry : Prop :=
  ∀ (e : ErrorCode) (s : State),
    EntersError e s.status.mode s (raiseError e s) ∧ engineStep (raiseError e s) = .next (raiseError e s)

/-- After an error, after a reset and after a start command has been accepted, nothing is known of what the output buffers
hold but the header an encode call has just written, and every host read of them is a free value (U1, U4, U5; the model's
choice: notes/assumptions/4.md). -/
def Obligations.OutputsForgotten : Prop :=
  (∀ (e : ErrorCode) (s : State), OutputsUnspecified (raiseError e s)) ∧
  (∀ s : State, OutputsUnspecified (resetRegisters s)) ∧
  (∀ s t : State, startDecode s = .next t → OutputsUnspecified t) ∧
  ∀ s t : State, startEncode s = .next t →
    (∀ a, t.outLen ≤ a → readCell t.mem.obuf a = none) ∧ (∀ i, readCell t.mem.opix i = none) ∧
    (∀ a, hostReadObuf t a = Config.freeObufByte t.epoch t.cur a) ∧
    ∀ i, hostReadOpix t i = Config.freeOpixPixel t.epoch t.cur i

/-- R137, R146: in IDLE, DONE and ERROR the block takes no step until a command, and every register keeps its value. -/
def Obligations.NoStepUntilCommand : Prop :=
  ∀ (s : State) (k : Nat), s.inbox = [] → s.status.state ≠ .busy → Host.Core.run Sys2Proof.core k s = .next s

/-- A host action that R154 forbids is refused (U2, the model's choice: notes/assumptions/6.md), and so is providing another output
buffer for the one in use (the model's choice: notes/assumptions/27.md); every write of an input
that R154 allows takes effect: of an input register while not BUSY, of IBUF unless a decode call is running, of IPIX unless an
encode call is. -/
def Obligations.HostWrites : Prop :=
  (∀ (s : State) (a : HostAction) (rest : List HostAction), s.inbox = a :: rest → allowedByHost a s = false →
    step s = .refused .hostWroteWhileBusy) ∧
  ∀ (s : State) (a : HostAction) (rest : List HostAction), s.inbox = a :: rest → allowedByHost a s = true →
    (∀ v, a = .writeWidth v → step s = .next { s with inbox := rest, width := v }) ∧
    (∀ v, a = .writeHeight v → step s = .next { s with inbox := rest, height := v }) ∧
    (∀ v, a = .writeChannels v → step s = .next { s with inbox := rest, channels := v }) ∧
    (∀ v, a = .writeColorspace v → step s = .next { s with inbox := rest, colorspace := v }) ∧
    (∀ n, a = .writeInLen n → step s = .next { s with inbox := rest, inLen := n }) ∧
    (∀ x v, a = .writeIbuf x v → ∃ t, step s = .next t ∧ readIbuf t x = v ∧
      sameOutside s.mem.ibuf t.mem.ibuf x 1 ∧ t = { s with inbox := rest, mem := { s.mem with ibuf := t.mem.ibuf } }) ∧
    ∀ i p, a = .writeIpix i p → ∃ t, step s = .next t ∧ pixRead t i = p ∧
      sameOutside s.mem.ipix t.mem.ipix i 1 ∧ t = { s with inbox := rest, mem := { s.mem with ipix := t.mem.ipix } }

/-- The step is refused only where the host breaks R154, provides another output buffer for the one in use
(notes/assumptions/27.md), or starts a call whose checks pass without the room of R150: 22 + 5 *
W * H bytes for an encode call, min(W * H, 62 * (N - 22)) pixels for a decode call, W and H the header's (U2, U6; the model's
choice: notes/assumptions/6.md, 7.md). -/
def Obligations.RefusedOnlyByHost : Prop :=
  ∀ (s : State) (r : Refusal), step s = .refused r →
    ∃ a rest, s.inbox = a :: rest ∧
      ((r = .hostWroteWhileBusy ∧ allowedByHost a s = false) ∨
        (r = .outputBufferTooSmall ∧ s.status.state ≠ .busy ∧
          (a = .command .startEncode ∧ encodeStartError s = none ∧
              s.obufCap < 22 + 5 * (s.width.toNat * s.height.toNat) ∨
            a = .command .startDecode ∧ ∃ h, decodeStartHeader (acceptStart .decode { s with inbox := rest }) = .ok h ∧
              s.opixCap < min (h.width.toNat * h.height.toNat) (62 * (s.inLen - 22)))))

/-- Until a call is DONE the host's reads of the outputs do not depend on what memory holds, so they show nothing of what the
block has written. That they do not is the model's choice (notes/assumptions/4.md): R46 only leaves the contents unspecified
until then. In DONE the host reads the output as written (R153) and OUT_LEN (R24). -/
def Obligations.NoPartialOutput : Prop :=
  (∀ (s : State) (a : Nat) (m : Memory), s.status.state ≠ .done →
    hostReadObuf { s with mem := m } a = hostReadObuf s a ∧ hostReadOpix { s with mem := m } a = hostReadOpix s a) ∧
  (∀ (s : State) (a : Nat) (b : Byte), s.status.state = .done → s.status.mode = .encode → a < s.outLen →
    readCell s.mem.obuf a = some b → hostReadObuf s a = b ∧ hostReadOutLen s = s.outLen) ∧
  ∀ (s : State) (i : Nat) (p : Pixel), s.status.state = .done → s.status.mode = .decode → i < s.outLen →
    readCell s.mem.opix i = some p → hostReadOpix s i = p ∧ hostReadOutLen s = s.outLen

/-! ### The encoder (spec/43_encoder.md) -/

/-- R100, R134: the start of an encode call. The checks come in the order channels, colour space, zero dimension, IN_LEN
(all INVALID_IMAGE), then CAPACITY; when all pass, and the host has provided the room of R150, the header is at OBUF[0..13],
the datapath registers and the table are initialised, and STATE is BUSY. -/
def Obligations.StartEncode : Prop :=
  ∀ (s : State) (rest : List HostAction), s.inbox = .command .startEncode :: rest → s.status.state ≠ .busy →
    let legal := (s.channels = 3 ∨ s.channels = 4) ∧ (s.colorspace = 0 ∨ s.colorspace = 1) ∧
      s.width ≠ 0 ∧ s.height ≠ 0 ∧ s.inLen = s.width.toNat * s.height.toNat
    let small := s.width.toNat * s.height.toNat ≤ s.params.maxPixels
    (¬legal → ∃ t, step s = .next t ∧ EntersError .invalidImage .encode { s with inbox := rest } t) ∧
    (legal ∧ ¬small → ∃ t, step s = .next t ∧ EntersError .capacity .encode { s with inbox := rest } t) ∧
    (legal ∧ small ∧ 22 + 5 * (s.width.toNat * s.height.toNat) ≤ s.obufCap →
      ∃ t, step s = .next t ∧ t.status = ⟨.busy, .encode, .none⟩ ∧ t.prev = ⟨0, 0, 0, 255⟩ ∧ t.run = 0 ∧ t.cur = 0 ∧
        (∀ k : Slot, t.ht[k] = ⟨0, 0, 0, 0⟩) ∧ t.outLen = 14 ∧
        holdsAt t.mem.obuf 0 (s.params.magic.toList ++ fromInt32be s.width.toNat ++ fromInt32be s.height.toNat ++
          [s.channels, s.colorspace]) ∧
        t.width = s.width ∧ t.height = s.height ∧ t.channels = s.channels ∧ t.colorspace = s.colorspace ∧
        t.inLen = s.inLen ∧ t.mem.ibuf = s.mem.ibuf ∧ t.mem.ipix = s.mem.ipix ∧ t.params = s.params ∧ t.inbox = rest)

/-- The bytes of the RUN record of a pending run, if there is one (R103). -/
def Sys2Proof.Claims.flushBytes (run : BitVec 6) : List Byte := if run = 0 then [] else [BitVec.ofNat 8 (0xC0 + (run.toNat - 1))]

/-- The bytes of the record the priority ladder emits for p, written out from R52 to R57 and R104 to R108. -/
def Sys2Proof.Claims.ladderBytes (ht : Vector Pixel 64) (q p : Pixel) : List Byte :=
  let dr := (p.r - q.r).toInt
  let dg := (p.g - q.g).toInt
  let db := (p.b - q.b).toInt
  if ht[pixelHash p] = p then [BitVec.ofNat 8 (pixelHash p).val]
  else if p.a = q.a ∧ -2 ≤ dr ∧ dr ≤ 1 ∧ -2 ≤ dg ∧ dg ≤ 1 ∧ -2 ≤ db ∧ db ≤ 1 then
    [BitVec.ofInt 8 (0x40 + (dr + 2) * 16 + (dg + 2) * 4 + (db + 2))]
  else if p.a = q.a ∧ -32 ≤ dg ∧ dg ≤ 31 ∧ -8 ≤ dr - dg ∧ dr - dg ≤ 7 ∧ -8 ≤ db - dg ∧ db - dg ≤ 7 then
    [BitVec.ofInt 8 (0x80 + (dg + 32)), BitVec.ofInt 8 ((dr - dg + 8) * 16 + (db - dg + 8))]
  else if p.a = q.a then [0xFE, p.r, p.g, p.b]
  else [0xFF, p.r, p.g, p.b, p.a]

/-- R101 to R110, R112, R155, R156: the pixel step of an encode call whose run counter is below 62. A pixel equal to PREV
is absorbed, and the 62nd flushes the run; any other flushes a pending run first, then emits the record of the first check
that matches in the order index, diff, luma, RGB, RGBA, the index check reading the table before the store; the table is
written in the slot of the pixel's hash. -/
def Obligations.PixelStep : Prop :=
  ∀ s : State, inCall .encode s → s.inbox = [] → s.cur < s.inLen → s.run.toNat ≤ 61 →
    let p := pixRead s s.cur
    let bytes := if p = s.prev then (if s.run.toNat = 61 then [0xFD] else [])
      else Claims.flushBytes s.run ++ Claims.ladderBytes s.ht s.prev p
    ∃ t, step s = .next t ∧
      t.outLen = s.outLen + bytes.length ∧ holdsAt t.mem.obuf s.outLen bytes ∧
      sameOutside s.mem.obuf t.mem.obuf s.outLen bytes.length ∧
      t.run = (if p = s.prev ∧ s.run.toNat < 61 then s.run + 1 else 0) ∧
      (∀ k : Slot, t.ht[k] = if p ≠ s.prev ∧ k = pixelHash p then p else s.ht[k]) ∧
      t.prev = p ∧ t.cur = s.cur + 1 ∧
      t = { s with mem := { s.mem with obuf := t.mem.obuf },
                   outLen := t.outLen, run := t.run, ht := t.ht, prev := t.prev, cur := t.cur }

/-- R43: a pixel step appends 0 to 6 bytes. -/
def Obligations.PixelStepAtMostSixBytes : Prop :=
  ∀ s t : State, inCall .encode s → s.inbox = [] → s.cur < s.inLen → s.run.toNat ≤ 61 → step s = .next t →
    s.outLen ≤ t.outLen ∧ t.outLen ≤ s.outLen + 6

/-- R111: the finish step of an encode call emits the pending run's record, if there is one, then the sentinel, and ends
the call in DONE. -/
def Obligations.FinishEncode : Prop :=
  ∀ s : State, inCall .encode s → s.inbox = [] → s.cur = s.inLen → s.run.toNat ≤ 62 →
    let bytes := Claims.flushBytes s.run ++ s.params.sentinel.toList
    ∃ t, step s = .next t ∧ t.status = { s.status with state := .done } ∧ t.run = 0 ∧
      t.outLen = s.outLen + bytes.length ∧ holdsAt t.mem.obuf s.outLen bytes ∧
      sameOutside s.mem.obuf t.mem.obuf s.outLen bytes.length ∧
      t = { s with mem := { s.mem with obuf := t.mem.obuf }, outLen := t.outLen, run := t.run, status := t.status }

/-! ### The decoder (spec/44_decoder.md) -/

/-- R117, R134, R80: the start of a decode call whose N input bytes are `f 0 .. f (N-1)`. The checks come in the order
length, magic, channels, colour space, zero dimension (all MALFORMED_HEADER), sentinel (BAD_SENTINEL, also for N below 22),
then CAPACITY; when all pass, and the host has provided the room of R150, the image registers hold the header's fields, CUR
is 14 and STATE is BUSY. -/
def Obligations.StartDecode : Prop :=
  ∀ (s : State) (rest : List HostAction) (f : Nat → Byte),
    s.inbox = .command .startDecode :: rest → s.status.state ≠ .busy →
    (∀ a, a < s.inLen → readCell s.mem.ibuf a = some (f a)) →
    let w : Word32 := f 4 ++ f 5 ++ f 6 ++ f 7
    let h : Word32 := f 8 ++ f 9 ++ f 10 ++ f 11
    let header := 14 ≤ s.inLen ∧ [f 0, f 1, f 2, f 3] = s.params.magic.toList ∧ (f 12 = 3 ∨ f 12 = 4) ∧
      (f 13 = 0 ∨ f 13 = 1) ∧ w ≠ 0 ∧ h ≠ 0
    let trailer := 22 ≤ s.inLen ∧ (List.range 8).map (fun i => f (s.inLen - 8 + i)) = s.params.sentinel.toList
    let small := w.toNat * h.toNat ≤ s.params.maxPixels
    (¬header → ∃ t, step s = .next t ∧ EntersError .malformedHeader .decode { s with inbox := rest } t) ∧
    (header ∧ ¬trailer → ∃ t, step s = .next t ∧ EntersError .badSentinel .decode { s with inbox := rest } t) ∧
    (header ∧ trailer ∧ ¬small → ∃ t, step s = .next t ∧ EntersError .capacity .decode { s with inbox := rest } t) ∧
    (header ∧ trailer ∧ small ∧ min (w.toNat * h.toNat) (62 * (s.inLen - 22)) ≤ s.opixCap →
      ∃ t, step s = .next t ∧ t.status = ⟨.busy, .decode, .none⟩ ∧
        t.width = w ∧ t.height = h ∧ t.channels = f 12 ∧ t.colorspace = f 13 ∧
        t.prev = ⟨0, 0, 0, 255⟩ ∧ t.run = 0 ∧ t.cur = 14 ∧ (∀ k : Slot, t.ht[k] = ⟨0, 0, 0, 0⟩) ∧ t.outLen = 0 ∧
        t.inLen = s.inLen ∧ t.mem.ibuf = s.mem.ibuf ∧ t.mem.ipix = s.mem.ipix ∧ t.params = s.params ∧ t.inbox = rest)

/-- R119, R120: the record step raises TRUNCATED_STREAM when the bytes before N - 8 are exhausted or the record does not
fit before N - 8, and otherwise executes the record that the bytes at CUR decode to. -/
def Obligations.RecordStep : Prop :=
  ∀ s : State, inCall .decode s → s.inbox = [] → s.outLen < s.width.toNat * s.height.toNat →
    let ln := (kind (readIbuf s s.cur)).length
    ((s.cur : Int) ≥ (s.inLen : Int) - 8 →
      ∃ t, step s = .next t ∧ EntersError .truncatedStream .decode s t) ∧
    ((s.cur : Int) < (s.inLen : Int) - 8 → (s.cur : Int) + ln > (s.inLen : Int) - 8 →
      ∃ t, step s = .next t ∧ EntersError .truncatedStream .decode s t) ∧
    ((s.cur : Int) + ln ≤ (s.inLen : Int) - 8 →
      ∃ i, decode (memRead s s.cur ln) = .ok (i, []) ∧ i.length = ln ∧ step s = exec i s)

/-- When the bytes at CUR are the encoding of a legal record, a step of the running decode call is that record's
execution, also when the host pauses for it. -/
def Obligations.StepRunsDecodedRecord : Prop :=
  ∀ (s : State) (i : Instr), i.wellFormed → inCall .decode s → s.outLen < s.width.toNat * s.height.toNat →
    memRead s s.cur i.length = encode i → s.cur + i.length + 8 ≤ s.inLen →
    (s.inbox = [] → step s = exec i s) ∧
    ∀ rest, s.inbox = .pause :: rest → step s = exec i { s with inbox := rest }

/-- The word of an opcode-table row put in place by withFetchWord is what the very next step runs, from any state
(notes/assumptions/18.md). -/
def Obligations.FetchWordRuns : Prop :=
  ∀ (s : State) (nbits w : Nat) (i : Instr), decodeTableWord nbits w = some i →
    step (s.withFetchWord nbits w) = exec i (s.withFetchWord nbits w)

/-- R124: with all W*H pixels produced, a record byte left before the sentinel raises DIMENSION_MISMATCH; otherwise the call
ends in DONE and nothing else changes. -/
def Obligations.FinishDecode : Prop :=
  ∀ s : State, inCall .decode s → s.inbox = [] → s.outLen = s.width.toNat * s.height.toNat → 8 ≤ s.inLen →
    ((s.cur : Int) ≠ (s.inLen : Int) - 8 → ∃ t, step s = .next t ∧ EntersError .dimensionMismatch .decode s t) ∧
    ((s.cur : Int) = (s.inLen : Int) - 8 → step s = .next { s with status := { s.status with state := .done } })

/-- R121, R122, R128: each record step that does not end the call advances CUR by exactly the record's length, leaves PREV
the last pixel produced and keeps every pixel produced before. -/
def Obligations.RecordStepAdvances : Prop :=
  ∀ s t : State, Inv s → inCall .decode s → s.inbox = [] → s.outLen < s.width.toNat * s.height.toNat → step s = .next t →
    t.status.state = .busy →
    t.cur = s.cur + (kind (readIbuf s s.cur)).length ∧ s.outLen < t.outLen ∧
    readCell t.mem.opix (t.outLen - 1) = some t.prev ∧
    (∀ a, a < s.outLen → readCell t.mem.opix a = readCell s.mem.opix a) ∧
    (kind (readIbuf s s.cur) = .run → t.ht = s.ht ∧ t.prev = s.prev) ∧
    (kind (readIbuf s s.cur) ≠ .run → t.outLen = s.outLen + 1 ∧
      ∀ k : Slot, t.ht[k] = if k = pixelHash t.prev then t.prev else s.ht[k])

/-! ### The whole machine -/

/-- The invariant holds after reset. -/
def Obligations.InvariantAtReset : Prop := Inv State.reset

/-- Every step keeps the invariant, from every state that has it. -/
def Obligations.StepKeepsInvariant : Prop := ∀ s t : State, Inv s → step s = .next t → Inv t

/-- R7, R33, R49: no step changes a parameter; the input buffers change only by the host's own writes. -/
def Obligations.InputsChangeOnlyByHost : Prop :=
  ∀ s t : State, step s = .next t →
    t.params = s.params ∧
    ((∀ a v, s.inbox.head? ≠ some (.writeIbuf a v)) → t.mem.ibuf = s.mem.ibuf) ∧
    ((∀ i p, s.inbox.head? ≠ some (.writeIpix i p)) → t.mem.ipix = s.mem.ipix)

/-- R14, R137, R141: only a start command makes the block BUSY, and only its own last step, an error or a reset ends
BUSY; MODE changes only when a start command is accepted or at a reset. -/
def Obligations.OnlyTheseEventsChangeState : Prop :=
  ∀ s t : State, step s = .next t →
    (s.status.state ≠ .busy → t.status.state = .busy →
      s.inbox.head? = some (.command .startEncode) ∨ s.inbox.head? = some (.command .startDecode)) ∧
    (s.status.state = .busy → t.status.state ≠ .busy →
      (s.inbox.head? = none ∨ s.inbox.head? = some .pause) ∧ (t.status.state = .done ∨ t.status.state = .error) ∨
      (s.inbox.head? = some (.command .reset) ∨ s.inbox.head? = some .hardwareReset) ∧ t.status.state = .idle) ∧
    (t.status.mode ≠ s.status.mode →
      s.inbox.head? = some (.command .reset) ∨ s.inbox.head? = some .hardwareReset ∨
      s.status.state ≠ .busy ∧
        (s.inbox.head? = some (.command .startEncode) ∨ s.inbox.head? = some (.command .startDecode)))

/-- R35: OBUF is append-only in an encode call: a byte written stays. -/
def Obligations.OutputBytesStay : Prop :=
  ∀ s t : State, Inv s → inCall .encode s → s.inbox = [] → step s = .next t →
    s.outLen ≤ t.outLen ∧ t.outLen ≤ s.obufCap ∧
      ∀ a, a < s.outLen → ∃ b, readCell s.mem.obuf a = some b ∧ readCell t.mem.obuf a = some b

/-- R69: the size bounds of an encode call that ends in DONE, and of a decode input that decodes without error. -/
def Obligations.SizeBounds : Prop :=
  ∀ s t : State, Inv s → s.status.state = .busy → s.inbox = [] → step s = .next t → t.status.state = .done →
    let n := t.width.toNat * t.height.toNat
    (t.status.mode = .encode → t.outLen ≤ 22 + 5 * n ∧ n ≤ 62 * (t.outLen - 22)) ∧
    (t.status.mode = .decode → t.inLen - 22 ≤ 5 * n ∧ 23 ≤ t.inLen ∧ t.outLen = n)

/-- R152: an encode call ends in DONE after exactly one step for each pixel left and the finish step. -/
def Obligations.EncodeCallEnds : Prop :=
  ∀ s : State, Inv s → inCall .encode s → s.inbox = [] →
    ∃ t, Host.Core.run Sys2Proof.core (s.inLen - s.cur + 1) s = .next t ∧
      t.status = ⟨.done, .encode, .none⟩ ∧ t.cur = t.inLen

/-- R152: a decode call ends, in DONE or ERROR, within one step for each byte left and the finish step. -/
def Obligations.DecodeCallEnds : Prop :=
  ∀ s : State, Inv s → inCall .decode s → s.inbox = [] →
    ∃ k t, k ≤ s.inLen - 8 - s.cur + 1 ∧ Host.Core.run Sys2Proof.core k s = .next t ∧
      (t.status.state = .done ∨ t.status.state = .error) ∧ t.status.mode = .decode

/-- R114: the state of a decoder that has executed every record an encoder has emitted: the same PREV and HT, and every
pixel but the pending run produced. -/
structure Sys2Proof.Claims.LockStep (e d : State) : Prop where
  encoder : inCall .encode e
  decoder : inCall .decode d
  prev : d.prev = e.prev
  table : d.ht = e.ht
  produced : d.outLen + e.run.toNat = e.cur
  pixels : ∀ i, i < d.outLen → readCell d.mem.opix i = some (pixRead e i)
  cursor : d.cur = e.outLen
  room : e.inLen = e.width.toNat * e.height.toNat ∧ d.width = e.width ∧ d.height = e.height
  quiet : e.inbox = [] ∧ d.inbox = []

/-- R114: the lock-step invariant. When the encoder takes a pixel step, a decoder in step with it whose input holds the
bytes of that step (and eight more) comes back in step with it by executing the records emitted, at most two. -/
def Obligations.LockStepKept : Prop :=
  ∀ e e' d : State, Inv e → Inv d → Claims.LockStep e d → e.cur < e.inLen → step e = .next e' →
    (∀ a, e.outLen ≤ a → a < e'.outLen → ∃ b, readCell e'.mem.obuf a = some b ∧ readIbuf d a = b) →
    e'.outLen + 8 ≤ d.inLen →
    ∃ k d', k ≤ 2 ∧ Host.Core.run Sys2Proof.core k d = .next d' ∧ Claims.LockStep e' d'

/-- R115: for every image accepted by the start of an encode call, decoding the bytes of the encode call succeeds and
yields the same WIDTH, HEIGHT, CHANNELS, COLORSPACE and every pixel, in order. -/
def Obligations.RoundTrip : Prop :=
  ∀ (s d : State) (img : Nat → Pixel),
    let n := s.width.toNat * s.height.toNat
    Inv s → s.inbox = [.command .startEncode] → s.status.state ≠ .busy →
    (s.channels = 3 ∨ s.channels = 4) → (s.colorspace = 0 ∨ s.colorspace = 1) → s.width ≠ 0 → s.height ≠ 0 →
    s.inLen = n → n ≤ s.params.maxPixels → 22 + 5 * n ≤ s.obufCap →
    (∀ i, i < n → readCell s.mem.ipix i = some (img i)) →
    ∃ e, Host.Core.run Sys2Proof.core (n + 2) s = .next e ∧ e.status = ⟨.done, .encode, .none⟩ ∧
      (Inv d → d.inbox = [.command .startDecode] → d.status.state ≠ .busy → d.params = s.params →
        d.inLen = e.outLen → (∀ a, a < e.outLen → readCell d.mem.ibuf a = some (hostReadObuf e a)) → n ≤ d.opixCap →
        ∃ k f, k ≤ d.inLen - 22 + 2 ∧ Host.Core.run Sys2Proof.core k d = .next f ∧
          f.status = ⟨.done, .decode, .none⟩ ∧ f.width = s.width ∧ f.height = s.height ∧ f.channels = s.channels ∧
          f.colorspace = s.colorspace ∧ f.outLen = n ∧ ∀ i, i < n → hostReadOpix f i = img i)

/-- R116, R148: two encode calls started, in any two states that are not BUSY, on the same image registers, pixels, MAGIC and
SENTINEL, MAX_PIXELS admitting the image in both or in neither, go the same way, whatever the states held otherwise: the
same STATUS, OUT_LEN and output bytes at every step. -/
def Obligations.EncodeDependsOnInputsOnly : Prop :=
  ∀ (s s' : State) (k : Nat), s.inbox = [.command .startEncode] → s'.inbox = [.command .startEncode] →
    s.status.state ≠ .busy → s'.status.state ≠ .busy →
    s'.width = s.width → s'.height = s.height → s'.channels = s.channels → s'.colorspace = s.colorspace →
    s'.inLen = s.inLen → s'.params.magic = s.params.magic → s'.params.sentinel = s.params.sentinel →
    (s.width.toNat * s.height.toNat ≤ s.params.maxPixels ↔ s.width.toNat * s.height.toNat ≤ s'.params.maxPixels) →
    (∀ i, i < s.inLen → ∃ p, readCell s.mem.ipix i = some p ∧ readCell s'.mem.ipix i = some p) →
    22 + 5 * (s.width.toNat * s.height.toNat) ≤ s.obufCap → 22 + 5 * (s.width.toNat * s.height.toNat) ≤ s'.obufCap →
    ∃ t t', Host.Core.run Sys2Proof.core (k + 1) s = .next t ∧ Host.Core.run Sys2Proof.core (k + 1) s' = .next t' ∧
      t'.status = t.status ∧ t'.outLen = t.outLen ∧ t'.mem.obuf = t.mem.obuf

/-- R127, R148: two decode calls started, in any two states that are not BUSY, on the same input bytes and parameters, with
the room of R150 for the header's image in both, go the same way, whatever the states held otherwise: the same STATUS, image
registers, OUT_LEN and pixels at every step. -/
def Obligations.DecodeDependsOnInputsOnly : Prop :=
  ∀ (s s' : State) (k : Nat), s.inbox = [.command .startDecode] → s'.inbox = [.command .startDecode] →
    s.status.state ≠ .busy → s'.status.state ≠ .busy → s'.inLen = s.inLen → s'.params = s.params →
    (∀ i, i < s.inLen → ∃ b, readCell s.mem.ibuf i = some b ∧ readCell s'.mem.ibuf i = some b) →
    (∀ h, decodeStartHeader s = .ok h → min (h.width.toNat * h.height.toNat) (62 * (s.inLen - 22)) ≤ min s.opixCap s'.opixCap) →
    ∃ t t', Host.Core.run Sys2Proof.core (k + 1) s = .next t ∧ Host.Core.run Sys2Proof.core (k + 1) s' = .next t' ∧
      t'.status = t.status ∧ t'.width = t.width ∧ t'.height = t.height ∧ t'.channels = t.channels ∧
      t'.colorspace = t.colorspace ∧ t'.outLen = t.outLen ∧ t'.mem.opix = t.mem.opix
end

