-- ==== Sys2Proof/Laws/Memory.lean ====
section
/-!
SUPPORT. Reading after writing a buffer, and that every write keeps the canonical form.
-/

namespace Sys2Proof.Machine

variable {α : Type} (m : List (Nat × α))

@[simp] theorem readCell_nil (a : Nat) : readCell ([] : List (Nat × α)) a = none := rfl

/-- A write gives the cell its value and leaves every other cell alone, whatever the list. -/
theorem readCell_writeCell (a b : Nat) (v : α) :
    readCell (writeCell m a v) b = if b = a then some v else readCell m b := by
  induction m with
  | nil => simp [writeCell, readCell, eq_comm]
  | cons c rest ih =>
    by_cases hb : b = a
    · subst hb
      simp only [writeCell]
      split
      · simp [readCell]
      · split
        · simp [readCell]
        · have : c.1 ≠ b := by omega
          simp [readCell, this, ih]
    · have hb' : a ≠ b := fun h => hb h.symm
      simp only [writeCell]
      split
      · simp [readCell, hb']
      · split
        · subst_vars
          simp [readCell, hb']
        · simp [readCell, ih, hb]

@[simp] theorem readCell_writeCell_same (a : Nat) (v : α) : readCell (writeCell m a v) a = some v := by
  simp [readCell_writeCell]

theorem readCell_writeCell_other {a b : Nat} (v : α) (h : b ≠ a) :
    readCell (writeCell m a v) b = readCell m b := by
  simp [readCell_writeCell, h]

/-- Reading after writing consecutive cells. -/
theorem readCell_writeCells (vs : List α) (a b : Nat) :
    readCell (writeCells m a vs) b = if a ≤ b ∧ b < a + vs.length then vs[b - a]? else readCell m b := by
  induction vs generalizing m a with
  | nil => simp [writeCells]
  | cons v vs ih =>
    simp only [writeCells, ih, readCell_writeCell, List.length_cons]
    by_cases h1 : b = a
    · subst h1; simp
    · by_cases h2 : a + 1 ≤ b ∧ b < a + 1 + vs.length
      · have h3 : a ≤ b ∧ b < a + (vs.length + 1) := by omega
        have h4 : b - a = (b - (a + 1)) + 1 := by omega
        rw [if_pos h2, if_pos h3, h4, List.getElem?_cons_succ]
      · have h3 : ¬(a ≤ b ∧ b < a + (vs.length + 1)) := by omega
        rw [if_neg h2, if_neg h3, if_neg h1]

theorem readCell_writeCells_below {vs : List α} {a b : Nat} (h : b < a) :
    readCell (writeCells m a vs) b = readCell m b := by
  rw [readCell_writeCells, if_neg (by omega)]

theorem readCell_writeCells_above {vs : List α} {a b : Nat} (h : a + vs.length ≤ b) :
    readCell (writeCells m a vs) b = readCell m b := by
  rw [readCell_writeCells, if_neg (by omega)]

/-- Where the addresses of a written list come from. -/
theorem mem_writeCell {a : Nat} {v : α} {c : Nat × α} (h : c ∈ writeCell m a v) : c.1 = a ∨ c ∈ m := by
  induction m with
  | nil => simp_all [writeCell]
  | cons d rest ih =>
    simp only [writeCell] at h
    split at h
    · simp only [List.mem_cons] at h ⊢
      rcases h with rfl | h
      · exact .inl rfl
      · exact .inr h
    · split at h
      · simp only [List.mem_cons] at h ⊢
        rcases h with rfl | h
        · exact .inl rfl
        · exact .inr (.inr h)
      · simp only [List.mem_cons] at h ⊢
        rcases h with rfl | h
        · exact .inr (.inl rfl)
        · exact (ih h).imp_right .inr

/-- A write keeps the canonical form. -/
theorem cellsRise_writeCell {m : List (Nat × α)} (h : cellsRise m) (a : Nat) (v : α) :
    cellsRise (writeCell m a v) := by
  induction m with
  | nil => simp [writeCell, cellsRise]
  | cons c rest ih =>
    obtain ⟨hc, hrest⟩ := List.pairwise_cons.mp h
    simp only [writeCell]
    split
    · refine List.pairwise_cons.mpr ⟨fun d hd => ?_, h⟩
      rcases List.mem_cons.mp hd with rfl | hd
      · assumption
      · have := hc d hd; omega
    · split
      · subst_vars
        exact List.pairwise_cons.mpr ⟨hc, hrest⟩
      · refine List.pairwise_cons.mpr ⟨fun d hd => ?_, ih hrest⟩
        rcases mem_writeCell rest hd with hd | hd
        · omega
        · exact hc d hd

theorem cellsRise_writeCells {m : List (Nat × α)} (h : cellsRise m) (a : Nat) (vs : List α) :
    cellsRise (writeCells m a vs) := by
  induction vs generalizing m a with
  | nil => exact h
  | cons v vs ih => exact ih (cellsRise_writeCell h a v) (a + 1)

@[simp] theorem cellsRise_nil : cellsRise ([] : List (Nat × α)) := List.Pairwise.nil

/-- The length of what MemRead reads (R11). -/
@[simp] theorem length_memRead (s : State) (a n : Nat) : (memRead s a n).length = n := by
  induction n generalizing a with
  | zero => rfl
  | succ n ih => simp [memRead, ih]

/-- MemRead reads byte by byte (R11). -/
theorem getElem?_memRead (s : State) (a n i : Nat) :
    (memRead s a n)[i]? = if i < n then some (readIbuf s (a + i)) else none := by
  induction n generalizing a i with
  | zero => simp [memRead]
  | succ n ih =>
    cases i with
    | zero => simp [memRead]
    | succ i => simp [memRead, ih, Nat.add_assoc, Nat.add_comm 1 i]

/-- MemRead of two pieces in a row. -/
theorem memRead_add (s : State) (a m n : Nat) : memRead s a (m + n) = memRead s a m ++ memRead s (a + m) n := by
  induction m generalizing a with
  | zero => simp [memRead]
  | succ m ih => simp [memRead, Nat.succ_add, ih, Nat.add_assoc]

/-- A byte the host has written reads as written (R44). -/
theorem readIbuf_of_readCell {s : State} {a : Nat} {b : Byte} (h : readCell s.mem.ibuf a = some b) :
    readIbuf s a = b := by
  simp [readIbuf, h]

/-- A pixel the host has written reads as written (R44). -/
theorem pixRead_of_readCell {s : State} {i : Nat} {p : Pixel} (h : readCell s.mem.ipix i = some p) :
    pixRead s i = p := by
  simp [pixRead, h]

/-- The four bytes of a pixel, in the order of R40. -/
@[simp] theorem pixelByte_pixelOfBytes (b0 b1 b2 b3 : Byte) :
    pixelByte (pixelOfBytes b0 b1 b2 b3) 0 = b0 ∧ pixelByte (pixelOfBytes b0 b1 b2 b3) 1 = b1 ∧
      pixelByte (pixelOfBytes b0 b1 b2 b3) 2 = b2 ∧ pixelByte (pixelOfBytes b0 b1 b2 b3) 3 = b3 :=
  ⟨rfl, rfl, rfl, rfl⟩

/-- Pixel i of IPIX lies at bytes 4i .. 4i+3 (R33, R40). -/
theorem ipixByte_of_pixel (s : State) (i c : Nat) (h : c < 4) : ipixByte s (4 * i + c) = pixelByte (pixRead s i) c := by
  simp only [ipixByte, show (4 * i + c) / 4 = i by omega, show (4 * i + c) % 4 = c by omega]

end Sys2Proof.Machine
end

