-- ==== Sys2Proof/Laws/State.lean ====
section
/-!
SUPPORT. The small lemmas of the shared state updates of Ops.lean: one per field and update, so that no proof unfolds an
update.
-/

namespace Sys2Proof.Machine

variable (s : State)

@[simp] theorem emit_status (bs : List Byte) : (emit bs s).status = s.status := rfl
@[simp] theorem emit_width (bs : List Byte) : (emit bs s).width = s.width := rfl
@[simp] theorem emit_height (bs : List Byte) : (emit bs s).height = s.height := rfl
@[simp] theorem emit_channels (bs : List Byte) : (emit bs s).channels = s.channels := rfl
@[simp] theorem emit_colorspace (bs : List Byte) : (emit bs s).colorspace = s.colorspace := rfl
@[simp] theorem emit_inLen (bs : List Byte) : (emit bs s).inLen = s.inLen := rfl
@[simp] theorem emit_outLen (bs : List Byte) : (emit bs s).outLen = s.outLen + bs.length := rfl
@[simp] theorem emit_prev (bs : List Byte) : (emit bs s).prev = s.prev := rfl
@[simp] theorem emit_run (bs : List Byte) : (emit bs s).run = s.run := rfl
@[simp] theorem emit_cur (bs : List Byte) : (emit bs s).cur = s.cur := rfl
@[simp] theorem emit_ht (bs : List Byte) : (emit bs s).ht = s.ht := rfl
@[simp] theorem emit_mem_ibuf (bs : List Byte) : (emit bs s).mem.ibuf = s.mem.ibuf := rfl
@[simp] theorem emit_mem_ipix (bs : List Byte) : (emit bs s).mem.ipix = s.mem.ipix := rfl
@[simp] theorem emit_mem_obuf (bs : List Byte) : (emit bs s).mem.obuf = writeCells s.mem.obuf s.outLen bs := rfl
@[simp] theorem emit_mem_opix (bs : List Byte) : (emit bs s).mem.opix = s.mem.opix := rfl
@[simp] theorem emit_obufCap (bs : List Byte) : (emit bs s).obufCap = s.obufCap := rfl
@[simp] theorem emit_opixCap (bs : List Byte) : (emit bs s).opixCap = s.opixCap := rfl
@[simp] theorem emit_params (bs : List Byte) : (emit bs s).params = s.params := rfl
@[simp] theorem emit_inbox (bs : List Byte) : (emit bs s).inbox = s.inbox := rfl
@[simp] theorem emit_epoch (bs : List Byte) : (emit bs s).epoch = s.epoch := rfl

@[simp] theorem pixWrite_status (ps : List Pixel) : (pixWrite ps s).status = s.status := rfl
@[simp] theorem pixWrite_width (ps : List Pixel) : (pixWrite ps s).width = s.width := rfl
@[simp] theorem pixWrite_height (ps : List Pixel) : (pixWrite ps s).height = s.height := rfl
@[simp] theorem pixWrite_channels (ps : List Pixel) : (pixWrite ps s).channels = s.channels := rfl
@[simp] theorem pixWrite_colorspace (ps : List Pixel) : (pixWrite ps s).colorspace = s.colorspace := rfl
@[simp] theorem pixWrite_inLen (ps : List Pixel) : (pixWrite ps s).inLen = s.inLen := rfl
@[simp] theorem pixWrite_outLen (ps : List Pixel) : (pixWrite ps s).outLen = s.outLen + ps.length := rfl
@[simp] theorem pixWrite_prev (ps : List Pixel) : (pixWrite ps s).prev = s.prev := rfl
@[simp] theorem pixWrite_run (ps : List Pixel) : (pixWrite ps s).run = s.run := rfl
@[simp] theorem pixWrite_cur (ps : List Pixel) : (pixWrite ps s).cur = s.cur := rfl
@[simp] theorem pixWrite_ht (ps : List Pixel) : (pixWrite ps s).ht = s.ht := rfl
@[simp] theorem pixWrite_mem_ibuf (ps : List Pixel) : (pixWrite ps s).mem.ibuf = s.mem.ibuf := rfl
@[simp] theorem pixWrite_mem_ipix (ps : List Pixel) : (pixWrite ps s).mem.ipix = s.mem.ipix := rfl
@[simp] theorem pixWrite_mem_obuf (ps : List Pixel) : (pixWrite ps s).mem.obuf = s.mem.obuf := rfl
@[simp] theorem pixWrite_mem_opix (ps : List Pixel) : (pixWrite ps s).mem.opix = writeCells s.mem.opix s.outLen ps := rfl
@[simp] theorem pixWrite_obufCap (ps : List Pixel) : (pixWrite ps s).obufCap = s.obufCap := rfl
@[simp] theorem pixWrite_opixCap (ps : List Pixel) : (pixWrite ps s).opixCap = s.opixCap := rfl
@[simp] theorem pixWrite_params (ps : List Pixel) : (pixWrite ps s).params = s.params := rfl
@[simp] theorem pixWrite_inbox (ps : List Pixel) : (pixWrite ps s).inbox = s.inbox := rfl
@[simp] theorem pixWrite_epoch (ps : List Pixel) : (pixWrite ps s).epoch = s.epoch := rfl

@[simp] theorem producePixel_status (px : Pixel) (len : Nat) : (producePixel px len s).status = s.status := rfl
@[simp] theorem producePixel_width (px : Pixel) (len : Nat) : (producePixel px len s).width = s.width := rfl
@[simp] theorem producePixel_height (px : Pixel) (len : Nat) : (producePixel px len s).height = s.height := rfl
@[simp] theorem producePixel_channels (px : Pixel) (len : Nat) : (producePixel px len s).channels = s.channels := rfl
@[simp] theorem producePixel_colorspace (px : Pixel) (len : Nat) : (producePixel px len s).colorspace = s.colorspace := rfl
@[simp] theorem producePixel_inLen (px : Pixel) (len : Nat) : (producePixel px len s).inLen = s.inLen := rfl
@[simp] theorem producePixel_outLen (px : Pixel) (len : Nat) : (producePixel px len s).outLen = s.outLen + 1 := rfl
@[simp] theorem producePixel_prev (px : Pixel) (len : Nat) : (producePixel px len s).prev = px := rfl
@[simp] theorem producePixel_run (px : Pixel) (len : Nat) : (producePixel px len s).run = s.run := rfl
@[simp] theorem producePixel_cur (px : Pixel) (len : Nat) : (producePixel px len s).cur = s.cur + len := rfl
@[simp] theorem producePixel_ht (px : Pixel) (len : Nat) : (producePixel px len s).ht = tablePut s.ht px := rfl
@[simp] theorem producePixel_mem_ibuf (px : Pixel) (len : Nat) : (producePixel px len s).mem.ibuf = s.mem.ibuf := rfl
@[simp] theorem producePixel_mem_ipix (px : Pixel) (len : Nat) : (producePixel px len s).mem.ipix = s.mem.ipix := rfl
@[simp] theorem producePixel_mem_obuf (px : Pixel) (len : Nat) : (producePixel px len s).mem.obuf = s.mem.obuf := rfl
@[simp] theorem producePixel_mem_opix (px : Pixel) (len : Nat) : (producePixel px len s).mem.opix = writeCell s.mem.opix s.outLen px := rfl
@[simp] theorem producePixel_obufCap (px : Pixel) (len : Nat) : (producePixel px len s).obufCap = s.obufCap := rfl
@[simp] theorem producePixel_opixCap (px : Pixel) (len : Nat) : (producePixel px len s).opixCap = s.opixCap := rfl
@[simp] theorem producePixel_params (px : Pixel) (len : Nat) : (producePixel px len s).params = s.params := rfl
@[simp] theorem producePixel_inbox (px : Pixel) (len : Nat) : (producePixel px len s).inbox = s.inbox := rfl
@[simp] theorem producePixel_epoch (px : Pixel) (len : Nat) : (producePixel px len s).epoch = s.epoch := rfl

@[simp] theorem forgetOutputs_status : (forgetOutputs s).status = s.status := rfl
@[simp] theorem forgetOutputs_width : (forgetOutputs s).width = s.width := rfl
@[simp] theorem forgetOutputs_height : (forgetOutputs s).height = s.height := rfl
@[simp] theorem forgetOutputs_channels : (forgetOutputs s).channels = s.channels := rfl
@[simp] theorem forgetOutputs_colorspace : (forgetOutputs s).colorspace = s.colorspace := rfl
@[simp] theorem forgetOutputs_inLen : (forgetOutputs s).inLen = s.inLen := rfl
@[simp] theorem forgetOutputs_outLen : (forgetOutputs s).outLen = s.outLen := rfl
@[simp] theorem forgetOutputs_prev : (forgetOutputs s).prev = s.prev := rfl
@[simp] theorem forgetOutputs_run : (forgetOutputs s).run = s.run := rfl
@[simp] theorem forgetOutputs_cur : (forgetOutputs s).cur = s.cur := rfl
@[simp] theorem forgetOutputs_ht : (forgetOutputs s).ht = s.ht := rfl
@[simp] theorem forgetOutputs_mem_ibuf : (forgetOutputs s).mem.ibuf = s.mem.ibuf := rfl
@[simp] theorem forgetOutputs_mem_ipix : (forgetOutputs s).mem.ipix = s.mem.ipix := rfl
@[simp] theorem forgetOutputs_mem_obuf : (forgetOutputs s).mem.obuf = [] := rfl
@[simp] theorem forgetOutputs_mem_opix : (forgetOutputs s).mem.opix = [] := rfl
@[simp] theorem forgetOutputs_obufCap : (forgetOutputs s).obufCap = s.obufCap := rfl
@[simp] theorem forgetOutputs_opixCap : (forgetOutputs s).opixCap = s.opixCap := rfl
@[simp] theorem forgetOutputs_params : (forgetOutputs s).params = s.params := rfl
@[simp] theorem forgetOutputs_inbox : (forgetOutputs s).inbox = s.inbox := rfl
@[simp] theorem forgetOutputs_epoch : (forgetOutputs s).epoch = s.epoch + 1 := rfl

@[simp] theorem acceptStart_status (m : Mode) : (acceptStart m s).status = ⟨s.status.state, m, .none⟩ := rfl
@[simp] theorem acceptStart_width (m : Mode) : (acceptStart m s).width = s.width := rfl
@[simp] theorem acceptStart_height (m : Mode) : (acceptStart m s).height = s.height := rfl
@[simp] theorem acceptStart_channels (m : Mode) : (acceptStart m s).channels = s.channels := rfl
@[simp] theorem acceptStart_colorspace (m : Mode) : (acceptStart m s).colorspace = s.colorspace := rfl
@[simp] theorem acceptStart_inLen (m : Mode) : (acceptStart m s).inLen = s.inLen := rfl
@[simp] theorem acceptStart_outLen (m : Mode) : (acceptStart m s).outLen = s.outLen := rfl
@[simp] theorem acceptStart_prev (m : Mode) : (acceptStart m s).prev = s.prev := rfl
@[simp] theorem acceptStart_run (m : Mode) : (acceptStart m s).run = s.run := rfl
@[simp] theorem acceptStart_cur (m : Mode) : (acceptStart m s).cur = s.cur := rfl
@[simp] theorem acceptStart_ht (m : Mode) : (acceptStart m s).ht = s.ht := rfl
@[simp] theorem acceptStart_mem_ibuf (m : Mode) : (acceptStart m s).mem.ibuf = s.mem.ibuf := rfl
@[simp] theorem acceptStart_mem_ipix (m : Mode) : (acceptStart m s).mem.ipix = s.mem.ipix := rfl
@[simp] theorem acceptStart_mem_obuf (m : Mode) : (acceptStart m s).mem.obuf = [] := rfl
@[simp] theorem acceptStart_mem_opix (m : Mode) : (acceptStart m s).mem.opix = [] := rfl
@[simp] theorem acceptStart_obufCap (m : Mode) : (acceptStart m s).obufCap = s.obufCap := rfl
@[simp] theorem acceptStart_opixCap (m : Mode) : (acceptStart m s).opixCap = s.opixCap := rfl
@[simp] theorem acceptStart_params (m : Mode) : (acceptStart m s).params = s.params := rfl
@[simp] theorem acceptStart_inbox (m : Mode) : (acceptStart m s).inbox = s.inbox := rfl
@[simp] theorem acceptStart_epoch (m : Mode) : (acceptStart m s).epoch = s.epoch + 1 := rfl

@[simp] theorem beginCall_status (c : Nat) : (beginCall c s).status = ⟨.busy, s.status.mode, s.status.err⟩ := rfl
@[simp] theorem beginCall_width (c : Nat) : (beginCall c s).width = s.width := rfl
@[simp] theorem beginCall_height (c : Nat) : (beginCall c s).height = s.height := rfl
@[simp] theorem beginCall_channels (c : Nat) : (beginCall c s).channels = s.channels := rfl
@[simp] theorem beginCall_colorspace (c : Nat) : (beginCall c s).colorspace = s.colorspace := rfl
@[simp] theorem beginCall_inLen (c : Nat) : (beginCall c s).inLen = s.inLen := rfl
@[simp] theorem beginCall_outLen (c : Nat) : (beginCall c s).outLen = 0 := rfl
@[simp] theorem beginCall_prev (c : Nat) : (beginCall c s).prev = Config.startPixel := rfl
@[simp] theorem beginCall_run (c : Nat) : (beginCall c s).run = 0 := rfl
@[simp] theorem beginCall_cur (c : Nat) : (beginCall c s).cur = c := rfl
@[simp] theorem beginCall_ht (c : Nat) : (beginCall c s).ht = clearTable := rfl
@[simp] theorem beginCall_mem (c : Nat) : (beginCall c s).mem = s.mem := rfl
@[simp] theorem beginCall_obufCap (c : Nat) : (beginCall c s).obufCap = s.obufCap := rfl
@[simp] theorem beginCall_opixCap (c : Nat) : (beginCall c s).opixCap = s.opixCap := rfl
@[simp] theorem beginCall_params (c : Nat) : (beginCall c s).params = s.params := rfl
@[simp] theorem beginCall_inbox (c : Nat) : (beginCall c s).inbox = s.inbox := rfl
@[simp] theorem beginCall_epoch (c : Nat) : (beginCall c s).epoch = s.epoch := rfl

@[simp] theorem resetRegisters_status : (resetRegisters s).status = ⟨.idle, .encode, .none⟩ := rfl
@[simp] theorem resetRegisters_width : (resetRegisters s).width = 0 := rfl
@[simp] theorem resetRegisters_height : (resetRegisters s).height = 0 := rfl
@[simp] theorem resetRegisters_channels : (resetRegisters s).channels = 0 := rfl
@[simp] theorem resetRegisters_colorspace : (resetRegisters s).colorspace = 0 := rfl
@[simp] theorem resetRegisters_inLen : (resetRegisters s).inLen = 0 := rfl
@[simp] theorem resetRegisters_outLen : (resetRegisters s).outLen = 0 := rfl
@[simp] theorem resetRegisters_prev : (resetRegisters s).prev = Config.startPixel := rfl
@[simp] theorem resetRegisters_run : (resetRegisters s).run = 0 := rfl
@[simp] theorem resetRegisters_cur : (resetRegisters s).cur = 0 := rfl
@[simp] theorem resetRegisters_ht : (resetRegisters s).ht = clearTable := rfl
@[simp] theorem resetRegisters_mem_ibuf : (resetRegisters s).mem.ibuf = s.mem.ibuf := rfl
@[simp] theorem resetRegisters_mem_ipix : (resetRegisters s).mem.ipix = s.mem.ipix := rfl
@[simp] theorem resetRegisters_mem_obuf : (resetRegisters s).mem.obuf = [] := rfl
@[simp] theorem resetRegisters_mem_opix : (resetRegisters s).mem.opix = [] := rfl
@[simp] theorem resetRegisters_obufCap : (resetRegisters s).obufCap = s.obufCap := rfl
@[simp] theorem resetRegisters_opixCap : (resetRegisters s).opixCap = s.opixCap := rfl
@[simp] theorem resetRegisters_params : (resetRegisters s).params = s.params := rfl
@[simp] theorem resetRegisters_inbox : (resetRegisters s).inbox = s.inbox := rfl
@[simp] theorem resetRegisters_epoch : (resetRegisters s).epoch = s.epoch + 1 := rfl

section RaiseError

variable (e : ErrorCode)

@[simp] theorem raiseError_status : (raiseError e s).status = ⟨.error, s.status.mode, e⟩ := by
  unfold raiseError
  cases s.status.mode <;> rfl
@[simp] theorem raiseError_width :
    (raiseError e s).width = if s.status.mode = .decode then 0 else s.width := by
  unfold raiseError
  cases s.status.mode <;> rfl
@[simp] theorem raiseError_height :
    (raiseError e s).height = if s.status.mode = .decode then 0 else s.height := by
  unfold raiseError
  cases s.status.mode <;> rfl
@[simp] theorem raiseError_channels :
    (raiseError e s).channels = if s.status.mode = .decode then 0 else s.channels := by
  unfold raiseError
  cases s.status.mode <;> rfl
@[simp] theorem raiseError_colorspace :
    (raiseError e s).colorspace = if s.status.mode = .decode then 0 else s.colorspace := by
  unfold raiseError
  cases s.status.mode <;> rfl
@[simp] theorem raiseError_inLen : (raiseError e s).inLen = s.inLen := by
  unfold raiseError
  cases s.status.mode <;> rfl
@[simp] theorem raiseError_outLen : (raiseError e s).outLen = 0 := by
  unfold raiseError
  cases s.status.mode <;> rfl
@[simp] theorem raiseError_prev : (raiseError e s).prev = s.prev := by
  unfold raiseError
  cases s.status.mode <;> rfl
@[simp] theorem raiseError_run : (raiseError e s).run = s.run := by
  unfold raiseError
  cases s.status.mode <;> rfl
@[simp] theorem raiseError_cur : (raiseError e s).cur = s.cur := by
  unfold raiseError
  cases s.status.mode <;> rfl
@[simp] theorem raiseError_ht : (raiseError e s).ht = s.ht := by
  unfold raiseError
  cases s.status.mode <;> rfl
@[simp] theorem raiseError_mem_ibuf : (raiseError e s).mem.ibuf = s.mem.ibuf := by
  unfold raiseError
  cases s.status.mode <;> rfl
@[simp] theorem raiseError_mem_ipix : (raiseError e s).mem.ipix = s.mem.ipix := by
  unfold raiseError
  cases s.status.mode <;> rfl
@[simp] theorem raiseError_mem_obuf : (raiseError e s).mem.obuf = [] := by
  unfold raiseError
  cases s.status.mode <;> rfl
@[simp] theorem raiseError_mem_opix : (raiseError e s).mem.opix = [] := by
  unfold raiseError
  cases s.status.mode <;> rfl
@[simp] theorem raiseError_obufCap : (raiseError e s).obufCap = s.obufCap := by
  unfold raiseError
  cases s.status.mode <;> rfl
@[simp] theorem raiseError_opixCap : (raiseError e s).opixCap = s.opixCap := by
  unfold raiseError
  cases s.status.mode <;> rfl
@[simp] theorem raiseError_params : (raiseError e s).params = s.params := by
  unfold raiseError
  cases s.status.mode <;> rfl
@[simp] theorem raiseError_inbox : (raiseError e s).inbox = s.inbox := by
  unfold raiseError
  cases s.status.mode <;> rfl
@[simp] theorem raiseError_epoch : (raiseError e s).epoch = s.epoch + 1 := by
  unfold raiseError
  cases s.status.mode <;> rfl

end RaiseError

end Sys2Proof.Machine
end

