-- ==== Sys2Proof/Laws/Table.lean ====
section
/-!
SUPPORT. The history table: what a store leaves in each slot, and that it keeps the table direct-mapped.
-/

namespace Sys2Proof.Machine

/-- A store writes the slot of the pixel's hash and no other (R85). -/
theorem getElem_tablePut (ht : Vector Pixel 64) (p : Pixel) (k : Slot) :
    (tablePut ht p)[k] = if k = pixelHash p then p else ht[k] := by
  by_cases hk : k = pixelHash p
  · subst hk
    simp [tablePut]
  · have hk' : (pixelHash p).val ≠ k.val := fun h' => hk (Fin.ext h'.symm)
    simp only [hk, if_false]
    simp [tablePut, hk']

@[simp] theorem getElem_clearTable (k : Slot) : clearTable[k] = Config.zeroPixel := by
  simp [clearTable]

@[simp] theorem hash_zeroPixel : pixelHash Config.zeroPixel = 0 := by decide

theorem tableDirectMapped_clearTable : tableDirectMapped clearTable := fun k => .inl (getElem_clearTable k)

/-- A store keeps the table direct-mapped (R29). -/
theorem tableDirectMapped_tablePut {ht : Vector Pixel 64} (h : tableDirectMapped ht) (p : Pixel) :
    tableDirectMapped (tablePut ht p) := by
  intro k
  rw [getElem_tablePut]
  split
  · exact .inr (by simp_all)
  · exact h k

/-- Storing the pixel a slot holds already changes nothing (R85 corner case, R121). -/
theorem tablePut_of_mem {ht : Vector Pixel 64} {p : Pixel} (h : tableGet ht (pixelHash p) = p) : tablePut ht p = ht := by
  apply Vector.ext
  intro i hi
  have := getElem_tablePut ht p ⟨i, hi⟩
  simp only [Fin.getElem_fin] at this
  rw [this]
  split
  · next hk => rw [← h]; simp [tableGet, ← hk]
  · rfl

end Sys2Proof.Machine
end

