-- ==== Sys2Proof/Laws/Exec.lean ====
section
/-!
SUPPORT. What the shared operations of the records can do, said once: producing a pixel, raising an error, filling a buffer;
and that executing a record always answers a next state.
-/

namespace Sys2Proof.Machine

/-- Producing a pixel writes what R93 to R97 say and nothing else. -/
theorem producePixel_spec (px : Pixel) (len : Nat) (s : State) : ProducesPixel px len s (producePixel px len s) where
  written := by simp
  otherPixels := fun x hx => by
    rw [producePixel_mem_opix]
    exact readCell_writeCell_other _ _ (by omega)
  outLen := rfl
  table := fun k => getElem_tablePut s.ht px k
  prev := rfl
  cur := rfl
  frame := rfl

/-- Raising an error writes what R136 says and nothing else. -/
theorem raiseError_spec (e : ErrorCode) (s : State) : EntersError e s.status.mode s (raiseError e s) where
  status := by simp
  outLen := by simp
  decodeImage := fun h => by simp [h]
  encodeImage := fun h => by simp [h]
  noOutput := by simp
  inputs := by simp
  kept := by simp
  rest := by simp

/-- The engine takes no step after an error (R136, R137). -/
theorem engineStep_of_not_busy {s : State} (h : s.status.state ≠ .busy) : engineStep s = .next s := by
  unfold engineStep
  cases hs : s.status.state <;> simp_all

/-- A record is executed by producing one pixel, or it is a RUN that fits, or a RUN past W*H pixels (R120). -/
theorem exec_cases (i : Instr) (s : State) :
    (∃ px, i.kind ≠ .run ∧ exec i s = .next (producePixel px i.length s)) ∨
    (∃ n, i = .run n ∧ s.outLen + n ≤ pixelCount s ∧
      exec i s = .next { pixWrite (List.replicate n s.prev) s with cur := s.cur + 1 }) ∨
    (∃ n, i = .run n ∧ pixelCount s < s.outLen + n ∧ exec i s = .next (raiseError .dimensionMismatch s)) := by
  cases i with
  | rgb r g b => exact .inl ⟨_, by simp [Instr.kind], rfl⟩
  | rgba r g b a => exact .inl ⟨_, by simp [Instr.kind], rfl⟩
  | index k => exact .inl ⟨_, by simp [Instr.kind], rfl⟩
  | diff dr dg db => exact .inl ⟨_, by simp [Instr.kind], rfl⟩
  | luma dg drg dbg => exact .inl ⟨_, by simp [Instr.kind], rfl⟩
  | run n =>
    by_cases h : s.outLen + n ≤ pixelCount s
    · exact .inr (.inl ⟨n, rfl, h, by simp [exec, execRun, h]⟩)
    · exact .inr (.inr ⟨n, rfl, by omega, by simp [exec, execRun, Nat.lt_of_not_le h]⟩)

/-- Nothing is known of an empty buffer. -/
theorem filledTo_nil {α : Type} : filledTo ([] : List (Nat × α)) 0 := fun a => by simp

/-- Appending at the end of a filled buffer fills it further. -/
theorem filledTo_writeCells {α : Type} {m : List (Nat × α)} {n : Nat} (h : filledTo m n) (vs : List α) :
    filledTo (writeCells m n vs) (n + vs.length) := by
  intro a
  rw [readCell_writeCells]
  split
  · next hin =>
    have : a - n < vs.length := by omega
    simp [List.getElem?_eq_getElem this]
    omega
  · have := h a
    rw [this]
    omega

theorem filledTo_writeCell {α : Type} {m : List (Nat × α)} {n : Nat} (h : filledTo m n) (v : α) :
    filledTo (writeCell m n v) (n + 1) := filledTo_writeCells h [v]

/-- A written list is held where it was written. -/
theorem holdsAt_writeCells {α : Type} (m : List (Nat × α)) (a : Nat) (vs : List α) :
    holdsAt (writeCells m a vs) a vs := by
  intro i hi
  rw [readCell_writeCells, if_pos (by omega), Nat.add_sub_cancel_left]

theorem sameOutside_writeCells {α : Type} (m : List (Nat × α)) (a : Nat) (vs : List α) :
    sameOutside m (writeCells m a vs) a vs.length := by
  intro x hx
  rw [readCell_writeCells, if_neg (by omega)]

/-- Writing two lists in a row is writing their concatenation. -/
theorem writeCells_append {α : Type} (m : List (Nat × α)) (a : Nat) (us vs : List α) :
    writeCells (writeCells m a us) (a + us.length) vs = writeCells m a (us ++ vs) := by
  induction us generalizing m a with
  | nil => simp [writeCells]
  | cons u us ih =>
    have := ih (writeCell m a u) (a + 1)
    simpa [writeCells, Nat.add_assoc, Nat.add_comm 1] using this

/-- Emitting twice is emitting once. -/
theorem emit_emit (us vs : List Byte) (s : State) : emit vs (emit us s) = emit (us ++ vs) s := by
  simp [emit, writeCells_append, Nat.add_assoc]

end Sys2Proof.Machine
end

