-- ==== Sys2Proof/Laws/Fields.lean ====
section
/-!
SUPPORT. The fields of the records: a field put into a byte is read back from it, and a bias is added and removed.
-/

namespace Sys2Proof

/-- Removing a bias undoes adding it, for an operand that fits the field (R61). -/
theorem unbias_biasField {w : Nat} {d bias : Int} (lo : 0 ≤ d + bias) (hi : d + bias < 2 ^ w) :
    unbias (biasField w d bias) bias = d := by
  have h : ((biasField w d bias).toNat : Int) = d + bias := by
    rw [biasField, BitVec.toNat_ofInt, Int.toNat_of_nonneg (Int.emod_nonneg _ (by positivity))]
    exact Int.emod_eq_of_lt lo (by exact_mod_cast hi)
  simp [unbias, h]

/-- Adding a bias undoes removing it (R61). -/
@[simp] theorem biasField_unbias {w : Nat} (f : BitVec w) (bias : Int) : biasField w (unbias f bias) bias = f := by
  simp [biasField, unbias]

/-- A byte from its tag and its 6-bit field (R51). -/
theorem bits_tag (t : BitVec 2) (f : BitVec 6) : bits (t ++ f) 6 2 = t ∧ bits (t ++ f) 0 6 = f := by
  revert t f
  decide

/-- The 2-bit fields of a DIFF byte (R53). -/
theorem bits_pairs (t a b c : BitVec 2) :
    bits (t ++ a ++ b ++ c) 6 2 = t ∧ bits (t ++ a ++ b ++ c) 4 2 = a ∧ bits (t ++ a ++ b ++ c) 2 2 = b ∧
      bits (t ++ a ++ b ++ c) 0 2 = c := by
  revert t a b c
  decide

/-- The nibbles of a LUMA byte (R54). -/
theorem bits_nibbles (a b : BitVec 4) : bits (a ++ b) 4 4 = a ∧ bits (a ++ b) 0 4 = b := by
  revert a b
  decide

/-- A byte is its tag and its 6-bit field. -/
theorem tag_append_bits (b : Byte) : bits b 6 2 ++ bits b 0 6 = b := by
  revert b
  decide

/-- A byte is its four pairs. -/
theorem pairs_append_bits (b : Byte) : bits b 6 2 ++ bits b 4 2 ++ bits b 2 2 ++ bits b 0 2 = b := by
  revert b
  decide

/-- A byte is its two nibbles. -/
theorem nibbles_append_bits (b : Byte) : bits b 4 4 ++ bits b 0 4 = b := by
  revert b
  decide

/-- The kind of a byte with each 2-bit tag; the tag `11` gives RUN unless the byte is a full-byte tag (R58). -/
theorem kind_of_tag (f : BitVec 6) :
    kind (0b00#2 ++ f) = .index ∧ kind (0b01#2 ++ f) = .diff ∧ kind (0b10#2 ++ f) = .luma ∧
      (f.toNat ≤ 61 → kind (0b11#2 ++ f) = .run) := by
  revert f
  decide

@[simp] theorem kind_rgb : kind 0xFE = .rgb := rfl
@[simp] theorem kind_rgba : kind 0xFF = .rgba := rfl

section DecodeByKind

variable {b0 : Byte} (b1 b2 b3 b4 : Byte) (rest : List Byte)

theorem decode_rgb (h : kind b0 = .rgb) : decode (b0 :: b1 :: b2 :: b3 :: rest) = .ok (.rgb b1 b2 b3, rest) := by
  simp [decode, h]

theorem decode_rgba (h : kind b0 = .rgba) :
    decode (b0 :: b1 :: b2 :: b3 :: b4 :: rest) = .ok (.rgba b1 b2 b3 b4, rest) := by simp [decode, h]

theorem decode_index (h : kind b0 = .index) : decode (b0 :: rest) = .ok (.index (indexOperand b0), rest) := by
  simp [decode, h]

theorem decode_diff (h : kind b0 = .diff) : decode (b0 :: rest) = .ok (diffOperands b0, rest) := by simp [decode, h]

theorem decode_luma (h : kind b0 = .luma) : decode (b0 :: b1 :: rest) = .ok (lumaOperands b0 b1, rest) := by
  simp [decode, h]

theorem decode_run (h : kind b0 = .run) : decode (b0 :: rest) = .ok (.run (runOperand b0), rest) := by
  simp [decode, h]

end DecodeByKind

end Sys2Proof
end

