-- ==== Sys2Proof/Laws/PerInstr.lean ====
section
/-!
SUPPORT. Statements about every record, proved per kind: the length of its encoding, and the kind its first byte announces.
-/

namespace Sys2Proof.Laws.EncodedLength

/-- A record is encoded in as many bytes as its kind has (R59). -/
def Statement (i : Instr) : Prop := (encode i).length = i.length

theorem rgb (r g b : Byte) : Statement (.rgb r g b) := rfl
theorem rgba (r g b a : Byte) : Statement (.rgba r g b a) := rfl
theorem index (k : Slot) : Statement (.index k) := rfl
theorem diff (dr dg db : Int) : Statement (.diff dr dg db) := rfl
theorem luma (dg drg dbg : Int) : Statement (.luma dg drg dbg) := rfl
theorem run (n : Nat) : Statement (.run n) := rfl

end Sys2Proof.Laws.EncodedLength

namespace Sys2Proof.Laws.EncodedKind

/-- The first byte of a legal record announces its kind (R58). -/
def Statement (i : Instr) : Prop := i.wellFormed → (encode i).head?.map Sys2Proof.kind = some i.kind

theorem rgb (r g b : Byte) : Statement (.rgb r g b) := fun _ => rfl
theorem rgba (r g b a : Byte) : Statement (.rgba r g b a) := fun _ => rfl
theorem index (k : Slot) : Statement (.index k) := fun _ => congrArg some (kind_of_tag _).1

theorem diff (dr dg db : Int) : Statement (.diff dr dg db) := fun _ => by
  have h : ∀ x y z : BitVec 2, kind (0b01#2 ++ x ++ y ++ z) = .diff := by decide
  exact congrArg some (h _ _ _)

theorem luma (dg drg dbg : Int) : Statement (.luma dg drg dbg) := fun _ => congrArg some (kind_of_tag _).2.2.1

theorem run (n : Nat) : Statement (.run n) := fun h => by
  simp only [Instr.wellFormed, runRange, Bool.and_eq_true, decide_eq_true_eq] at h
  refine congrArg some ((kind_of_tag _).2.2.2 ?_)
  simp only [BitVec.toNat_ofNat]
  omega

end Sys2Proof.Laws.EncodedKind
end

