-- ==== Sys2Proof/Laws/Sequencers.lean ====
section
/-!
SUPPORT. What each step of the two sequencers does, said once: the pixel step and the finish of an encode call, the record
step of a decode call, and which step the engine takes.
-/

namespace Sys2Proof.Machine

/-- The bytes of the RUN record of a pending run, if there is one (R103). -/
def runBytes (r : BitVec 6) : List Byte := if r = 0 then [] else encode (.run r.toNat)

theorem opRUN_of_legal {n : Nat} (h1 : 1 ≤ n) (h2 : n ≤ 62) : opRUN n = .ok (encode (.run n)) := by
  rw [opRUN, if_neg (by omega), Int.toNat_natCast]

/-- Flushing a pending run emits its record and clears RUN (R103). -/
theorem flushRun_spec {s : State} (h : s.run.toNat ≤ 62) :
    flushRun s = .ok { emit (runBytes s.run) s with run := 0 } := by
  unfold flushRun
  split
  · next h0 =>
    cases s
    simp_all [runBytes, emit, writeCells]
  · next h0 =>
    have h1 : 1 ≤ s.run.toNat := by
      rcases Nat.eq_zero_or_pos s.run.toNat with h' | h'
      · exact absurd (BitVec.eq_of_toNat_eq (by simpa using h')) h0
      · exact h'
    simp only [emitRun, emitRecord, opRUN_of_legal h1 h, runBytes, if_neg h0]

/-- The ladder only asks for legal records (R99, R104 to R108). -/
theorem ladder_wellFormed (s : State) (p : Pixel) : (ladder s p).wellFormed := by
  unfold ladder
  simp only
  split
  · rfl
  · split
    · next h =>
      simp only [diffOk, within, Bool.and_eq_true, decide_eq_true_eq] at h
      simp [Instr.wellFormed, diffRange, h]
    · split
      · next h =>
        simp only [lumaOk, within, Bool.and_eq_true, decide_eq_true_eq] at h
        simp [Instr.wellFormed, lumaGreenRange, lumaDiffRange, h]
      · split <;> rfl

/-- The ladder never chooses RUN. -/
theorem ladder_kind (s : State) (p : Pixel) : (ladder s p).kind ≠ .run := by
  unfold ladder
  simp only
  split
  · simp [Instr.kind]
  · split
    · simp [Instr.kind]
    · split
      · simp [Instr.kind]
      · split <;> simp [Instr.kind]

/-- The record the ladder chooses is constructed without an error (R99). -/
theorem construct_ladder (s : State) (p : Pixel) : construct (ladder s p) = .ok (encode (ladder s p)) := by
  have hw := ladder_wellFormed s p
  have hk := ladder_kind s p
  cases hi : ladder s p with
  | rgb r g b => rfl
  | rgba r g b a => rfl
  | index k =>
    rw [construct, opINDEX, if_neg (by omega)]
    simp
  | diff dr dg db => simp_all [construct, opDIFF]
  | luma dg drg dbg => simp_all [construct, opLUMA]
  | run n => simp_all [Instr.kind]

/-- Absorbing a pixel below a full run writes RUN, PREV and CUR only (R102, R110). -/
theorem pixelStep_absorb {s : State} (hp : pixRead s s.cur = s.prev) (h : s.run.toNat < 61) :
    pixelStep s = .next { s with run := s.run + 1, cur := s.cur + 1 } := by
  have hn : s.run + 1 ≠ 62 := by
    intro h'
    have := congrArg BitVec.toNat h'
    simp [BitVec.toNat_add] at this
    omega
  simp only [pixelStep, hp, if_true, absorbPixel, if_neg hn, settle, Except.map]

/-- Absorbing the 62nd pixel of a run flushes it (R103 a). -/
theorem pixelStep_flush {s : State} (hp : pixRead s s.cur = s.prev) (h : s.run.toNat = 61) :
    pixelStep s = .next { emit [0xFD] s with run := 0, cur := s.cur + 1 } := by
  have hr : s.run = 61 := BitVec.eq_of_toNat_eq (by simpa using h)
  simp [pixelStep, hp, absorbPixel, hr, emitRun, emitRecord, settle, Except.map, opRUN, encode, emit]

/-- A pixel that differs from PREV flushes the pending run, emits the ladder's record and stores (R101, R103 b). -/
theorem pixelStep_emit {s : State} (hp : pixRead s s.cur ≠ s.prev) (h : s.run.toNat ≤ 62) :
    pixelStep s = .next
      { emit (runBytes s.run ++ encode (ladder s (pixRead s s.cur))) s with
        run := 0
        ht := storeAfter (ladder s (pixRead s s.cur)) (pixRead s s.cur) s.ht
        prev := pixRead s s.cur
        cur := s.cur + 1 } := by
  have hl : ladder { emit (runBytes s.run) s with run := 0 } (pixRead s s.cur) = ladder s (pixRead s s.cur) := rfl
  simp only [pixelStep, hp, if_false, emitPixel, flushRun_spec h, hl, construct_ladder, emitRecord, Except.map, settle,
    ← emit_emit]
  rfl

/-- The finish step of an encode call (R111). -/
theorem finishEncode_spec {s : State} (h : s.run.toNat ≤ 62) :
    finishEncode s = .next
      { emit (runBytes s.run ++ s.params.sentinel.toList) s with
        run := 0, status := { s.status with state := .done } } := by
  simp only [finishEncode, flushRun_spec h, Except.map, settle, ← emit_emit]
  rfl

/-- A byte list of exactly the length its first byte announces decodes to one record (R63). -/
theorem decode_exact {b : Byte} {more : List Byte} (h : (b :: more).length = (kind b).length) :
    ∃ i, decode (b :: more) = .ok (i, []) ∧ i.kind = kind b := by
  cases hk : kind b <;> simp only [hk, Kind.length, List.length_cons] at h
  · match more, h with
    | [r, g, b'], _ => exact ⟨_, decode_rgb r g b' [] hk, rfl⟩
  · match more, h with
    | [r, g, b', a], _ => exact ⟨_, decode_rgba r g b' a [] hk, rfl⟩
  · match more, h with
    | [], _ => exact ⟨_, decode_index [] hk, rfl⟩
  · match more, h with
    | [], _ => exact ⟨_, decode_diff [] hk, rfl⟩
  · match more, h with
    | [b1], _ => exact ⟨_, decode_luma b1 [] hk, rfl⟩
  · match more, h with
    | [], _ => exact ⟨_, decode_run [] hk, rfl⟩

/-- Every record has 1, 2, 4 or 5 bytes (R59). -/
theorem length_kind (k : Kind) : 1 ≤ k.length ∧ k.length ≤ 5 := by cases k <;> decide

/-- The bytes at CUR of the length the first announces decode to one record of that kind (R119). -/
theorem decode_memRead (s : State) :
    ∃ i, decode (memRead s s.cur (kind (readIbuf s s.cur)).length) = .ok (i, []) ∧
      i.kind = kind (readIbuf s s.cur) := by
  obtain ⟨n, hn⟩ := Nat.exists_eq_add_of_le' (length_kind (kind (readIbuf s s.cur))).1
  rw [hn]
  apply decode_exact
  simp [hn]

/-- The record step: TRUNCATED_STREAM, or the execution of the record the bytes at CUR decode to (R119). -/
theorem recordStep_spec (s : State) :
    if s.cur + (kind (readIbuf s s.cur)).length ≤ streamEnd s then
      ∃ i, decode (memRead s s.cur (kind (readIbuf s s.cur)).length) = .ok (i, []) ∧
        i.kind = kind (readIbuf s s.cur) ∧ recordStep s = exec i s
    else recordStep s = .next (raiseError .truncatedStream s) := by
  have hl := (length_kind (kind (readIbuf s s.cur))).1
  unfold recordStep
  split
  · next h =>
    obtain ⟨i, hd, hk⟩ := decode_memRead s
    refine ⟨i, hd, hk, ?_⟩
    have h1 : ¬s.cur ≥ streamEnd s := by omega
    have h2 : ¬s.cur + (kind (readIbuf s s.cur)).length > streamEnd s := by omega
    simp [h1, h2, hd]
  · next h =>
    have h2 : s.cur + (kind (readIbuf s s.cur)).length > streamEnd s := by omega
    split <;> simp_all

/-- In a running encode call the engine takes the pixel step or the finish step. -/
theorem engineStep_encode {s : State} (h : inCall .encode s) : engineStep s = encodeCallStep s := by
  simp [inCall, isBusy] at h
  simp [engineStep, h.1, h.2]

/-- In a running decode call the engine takes the record step or the finish step. -/
theorem engineStep_decode {s : State} (h : inCall .decode s) : engineStep s = decodeCallStep s := by
  simp [inCall, isBusy] at h
  simp [engineStep, h.1, h.2]

/-- With the host idle the machine's step is the engine's. -/
theorem step_of_quiet {s : State} (h : s.inbox = []) : step s = engineStep s := by simp [step, h]

/-- With a host action pending the machine's step is that action's. -/
theorem step_of_action {s : State} {a : HostAction} {rest : List HostAction} (h : s.inbox = a :: rest) :
    step s = hostStep a { s with inbox := rest } := by simp [step, h]

/-- A call of a mode is running. -/
theorem inCall_iff {m : Mode} {s : State} : inCall m s = true ↔ s.status.state = .busy ∧ s.status.mode = m := by
  simp [inCall, isBusy]

/-- A step first, then the rest of the run. -/
theorem run_of_step {k : Nat} {s t : State} (h : step s = .next t) :
    Host.Core.run Sys2Proof.core (k + 1) s = Host.Core.run Sys2Proof.core k t := by
  have : Sys2Proof.core.step s = .next t := h
  simp only [Host.Core.run, this]

/-- IBUF reads the same in two states with the same contents and the same free values. -/
theorem readIbuf_congr {s t : State} (h : t.mem.ibuf = s.mem.ibuf) (he : t.epoch = s.epoch) (a : Nat) :
    readIbuf t a = readIbuf s a := by
  simp [readIbuf, h, he]

theorem memRead_congr {s t : State} (h : t.mem.ibuf = s.mem.ibuf) (he : t.epoch = s.epoch) (a n : Nat) :
    memRead t a n = memRead s a n := by
  induction n generalizing a with
  | zero => rfl
  | succ n ih => simp only [memRead, ih, readIbuf_congr h he]

/-- The decoder's unconditional store agrees with the encoder's: after INDEX it rewrites a slot with its own value
(R95 b, R109, R121). -/
theorem storeAfter_ladder (s : State) (p : Pixel) : storeAfter (ladder s p) p s.ht = tablePut s.ht p := by
  unfold ladder
  simp only
  split
  · next h => exact (tablePut_of_mem h).symm
  · split
    · rfl
    · split
      · rfl
      · split <;> rfl

end Sys2Proof.Machine
end

