-- ==== Sys2Proof/Tests/Slice0.lean ====
section
/-!
SUPPORT. The smoke tests of WellFormed, the decode and step tests (their expected results are from spec/30_encoding.md,
spec/42_opcodes.md and spec/95_test_vectors.md), and for each statement of Obligations.lean that has hypotheses a witness that
something meets them.
-/

namespace Sys2Proof.Tests
open Sys2Proof Sys2Proof.Machine

set_option maxRecDepth 4000

/-- The next state of an outcome. -/
def nextOf (o : Host.Outcome State Fault Refusal) : State :=
  match o with
  | .next s => s
  | .fault _ | .refused _ => State.reset

/-- A decode call of a 64 x 1 image about to execute the record of these bits. -/
def placed (nbits w : Nat) : State := State.reset.withFetchWord nbits w

/-- The state after the record of these bits has been executed as the first of its call. -/
def after (nbits w : Nat) : State := nextOf (step (placed nbits w))

/-- The 26 bytes of the 1 x 1 file of S7 (95_test_vectors.md). -/
def fileS7 : List Byte :=
  [0x71, 0x6F, 0x69, 0x66, 0, 0, 0, 1, 0, 0, 0, 1, 4, 0] ++ [0xFE, 0x0A, 0x14, 0x1E] ++ [0, 0, 0, 0, 0, 0, 0, 1]

/-- The pixel of S7. -/
def pixelS7 : Pixel := ⟨10, 20, 30, 255⟩

/-- A host that has loaded a 1 x 1 image of pixel p and issued START_ENCODE. -/
def loaded (p : Pixel) : State :=
  { State.reset with
    width := 1, height := 1, channels := 4, inLen := 1, obufCap := 27
    mem := { State.reset.mem with ipix := [(0, p)] }
    inbox := [.command .startEncode] }

/-- A host that has loaded a byte stream and issued START_DECODE. -/
def loadedFile (bs : List Byte) : State :=
  { State.reset with
    inLen := bs.length, opixCap := 62 * bs.length
    mem := { State.reset.mem with ibuf := writeCells [] 0 bs }
    inbox := [.command .startDecode] }

/-- The encode call of a 1 x 1 image of pixel p just after its start step. -/
def encoding (p : Pixel) : State := nextOf (step (loaded p))

/-- The decode call of the S7 file just after its start step. -/
def decoding : State := nextOf (step (loadedFile fileS7))

/-! ### WellFormed refuses each operand out of its range (R61, S2) -/

theorem test_wf_diff_dr : Instr.wellFormed (.diff (-3) 0 0) = false ∧ Instr.wellFormed (.diff 2 0 0) = false := by decide
theorem test_wf_diff_dg : Instr.wellFormed (.diff 0 (-3) 0) = false ∧ Instr.wellFormed (.diff 0 2 0) = false := by decide
theorem test_wf_diff_db : Instr.wellFormed (.diff 0 0 (-3)) = false ∧ Instr.wellFormed (.diff 0 0 2) = false := by decide
theorem test_wf_luma_dg : Instr.wellFormed (.luma (-33) 0 0) = false ∧ Instr.wellFormed (.luma 32 0 0) = false := by decide
theorem test_wf_luma_drg : Instr.wellFormed (.luma 0 (-9) 0) = false ∧ Instr.wellFormed (.luma 0 8 0) = false := by decide
theorem test_wf_luma_dbg : Instr.wellFormed (.luma 0 0 (-9)) = false ∧ Instr.wellFormed (.luma 0 0 8) = false := by decide
theorem test_wf_run : Instr.wellFormed (.run 0) = false ∧ Instr.wellFormed (.run 63) = false := by decide
theorem test_wf_accepts : Instr.wellFormed (.diff (-2) 1 0) ∧ Instr.wellFormed (.luma (-32) 7 (-8)) ∧
    Instr.wellFormed (.luma 31 (-8) 7) ∧ Instr.wellFormed (.run 1) ∧ Instr.wellFormed (.run 62) := by decide

/-! ### Words written out from the encodings of R52 to R57 -/

/-- R56: byte 0 = 1111 1110, then r, g, b. -/
theorem test_decode_rgb : decode [0b11111110, 0b00001010, 0b00010100, 0b00011110] = .ok (.rgb 10 20 30, []) := by decide
/-- R57: byte 0 = 1111 1111, then r, g, b, a. -/
theorem test_decode_rgba :
    decode [0b11111111, 0b00010100, 0b00011110, 0b00101000, 0b10000000] = .ok (.rgba 20 30 40 128, []) := by decide
/-- R52: 00 kkkkkk. -/
theorem test_decode_index : decode [0b00111110] = .ok (.index 62, []) := by decide
/-- R53: 01, then dr + 2, dg + 2, db + 2 in two bits each: 4E of S2 is DIFF -2, 1, 0. -/
theorem test_decode_diff : decode [0b01001110] = .ok (.diff (-2) 1 0, []) := by decide
/-- R54: 10, dg + 32 in six bits, then dr - dg + 8 and db - dg + 8 in four: 80 F0 of S2 is LUMA -32, 7, -8. -/
theorem test_decode_luma : decode [0b10000000, 0b11110000] = .ok (.luma (-32) 7 (-8), []) := by decide
/-- R55: 11, then n - 1 in six bits. -/
theorem test_decode_run : decode [0b11000000] = .ok (.run 1, []) ∧ decode [0b11111101] = .ok (.run 62, []) := by decide
/-- R58: the full-byte tags come before the 2-bit tag of RUN; a cut literal is rejected by name. -/
theorem test_decode_cut : decode [0xFE, 1, 2] = .error (.truncated .rgb) ∧ decode [] = .error .noBytes := by decide

/-! ### One step of each record (R93 to R98, 95_test_vectors.md section 2.4) -/

theorem test_step_rgb : (after 32 0x1E140AFE).prev = ⟨10, 20, 30, 255⟩ ∧ (after 32 0x1E140AFE).ht[9] = ⟨10, 20, 30, 255⟩ := by
  decide
theorem test_step_rgba : readCell (after 40 0x801E140AFF).mem.opix 0 = some ⟨10, 20, 30, 128⟩ ∧
    (after 40 0x801E140AFF).cur = 19 := by decide
/-- INDEX of a slot never written. -/
theorem test_step_index : (after 8 0x11).prev = ⟨0, 0, 0, 0⟩ ∧ (after 8 0x11).outLen = 1 := by decide
/-- R95 corner (a): the pixel goes to the slot of its hash, not to slot k. -/
theorem test_step_index_stores_by_hash :
    (nextOf (exec (.index 5) { placed 8 5 with ht := State.reset.ht.set 0 ⟨11, 19, 29, 255⟩ })).ht[0] = ⟨0, 0, 0, 0⟩ := by decide
theorem test_step_diff : (after 8 0x40).prev = ⟨254, 254, 254, 255⟩ ∧ (after 8 0x40).ht[23] = ⟨254, 254, 254, 255⟩ := by decide
/-- The wrap of 7F after (255,255,255,7). -/
theorem test_step_diff_wraps :
    (nextOf (exec (.diff 1 1 1) { placed 8 0x7F with prev := ⟨255, 255, 255, 7⟩ })).prev = ⟨0, 0, 0, 7⟩ := by decide
theorem test_step_luma : (after 16 0x0080).prev = ⟨216, 224, 216, 255⟩ ∧ (after 16 0x0080).cur = 16 := by decide
/-- The wrap of BF FF after (250,250,250,255). -/
theorem test_step_luma_wraps :
    (nextOf (exec (.luma 31 7 7) { placed 16 0xFFBF with prev := ⟨250, 250, 250, 255⟩ })).prev = ⟨32, 25, 32, 255⟩ := by decide
theorem test_step_run : (after 8 0xC1).outLen = 2 ∧ readCell (after 8 0xC1).mem.opix 1 = some ⟨0, 0, 0, 255⟩ ∧
    (after 8 0xC1).ht[53] = ⟨0, 0, 0, 0⟩ := by decide
/-- A run past W*H. -/
theorem test_step_run_overshoot :
    (nextOf (step { placed 8 0xC1 with width := 1 })).status = ⟨.error, .decode, .dimensionMismatch⟩ := by decide

/-! ### One step of the sequencers -/

/-- The header of a 1 x 1 image (R100). -/
theorem test_start_encode :
    (encoding pixelS7).outLen = 14 ∧ (encoding pixelS7).mem.obuf.map Prod.snd = fileS7.take 14 := by decide
/-- The RGB literal of S7. -/
theorem test_pixel_step : (nextOf (step (encoding pixelS7))).mem.obuf.map Prod.snd = fileS7.take 18 := by decide
/-- The sentinel of S7, and DONE. -/
theorem test_finish_encode : (nextOf (step (nextOf (step (encoding pixelS7))))).status = ⟨.done, .encode, .none⟩ ∧
    (nextOf (step (nextOf (step (encoding pixelS7))))).mem.obuf.map Prod.snd = fileS7 := by decide
theorem test_start_decode : decoding.status = ⟨.busy, .decode, .none⟩ ∧ decoding.cur = 14 ∧ decoding.width = 1 := by decide
/-- S9: the last byte changed to 02. -/
theorem test_bad_sentinel :
    (nextOf (step (loadedFile (fileS7.set 25 2)))).status = ⟨.error, .decode, .badSentinel⟩ := by decide

/-! ### The units (95_test_vectors.md sections 1, 2.1, 2.3) -/

theorem test_hash : pixelHash ⟨10, 20, 30, 255⟩ = 9 ∧ pixelHash ⟨20, 30, 40, 128⟩ = 42 ∧ pixelHash ⟨7, 7, 7, 255⟩ = 30 := by
  decide
theorem test_constructors : opDIFF 1 (-2) (-2) = .ok [0x70] ∧ opLUMA 31 (-8) 7 = .ok [0xBF, 0x0F] ∧ opRUN 62 = .ok [0xFD] ∧
    opINDEX 64 = .error .outOfRangePayload := by decide
theorem test_marshal : toInt32be [0x80, 0, 0, 0] = .ok 0x80000000 ∧ toS32 0x80000000 = -2147483648 ∧
    fromInt32be (-1) = [0xFF, 0xFF, 0xFF, 0xFF] ∧ partition [0x0A, 0x0B, 0x0C] [4, -1] = .error .marshalArg := by decide
theorem test_delta : diffOk ⟨0, 255, 1, 255⟩ ⟨255, 0, 1, 255⟩ = true ∧ lumaOk ⟨8, 0, 0, 255⟩ ⟨0, 0, 0, 255⟩ = false ∧
    lumaOk ⟨38, 31, 38, 255⟩ ⟨0, 0, 0, 255⟩ = true := by decide
/-- R40: byte 4i + c of IPIX is channel c of pixel i, in the order R, G, B, A. -/
theorem test_pixel_bytes : (List.range 4).map (fun c => ipixByte (encoding pixelS7) c) = [10, 20, 30, 255] ∧
    (nextOf (step { State.reset with inbox := [writeIpixBytes 3 1 2 3 4] })).mem.ipix = [(3, ⟨1, 2, 3, 4⟩)] := by decide
theorem test_asm : asmText (.record (.diff 1 (-1) (-1))) = "DIFF 1, -1, -1" := by decide

/-! ### States that have the invariant -/

/-- The decode call of the 64 x 1 image about to execute a RUN of 1. -/
def runNext : State := placed 8 0xC0

/-- The encode call of one start pixel, absorbed into the run: its finish step is next. -/
def encodeEnd : State := nextOf (step (encoding Config.startPixel))

/-- The decode call of one pixel, produced by one byte: its finish step is next. -/
def decodeEnd : State :=
  { runNext with
    width := 1, outLen := 1, cur := 15, inLen := 23
    mem := { runNext.mem with opix := [(0, Config.startPixel)] } }

theorem mapped_clear : tableDirectMapped clearTable := fun k => .inl (by simp [clearTable])

theorem inv_runNext : Inv runNext where
  memory := by decide
  table := mapped_clear
  err := by decide
  noOutput := by decide
  run := by decide
  encodeCall := fun h => absurd h (by decide)
  decodeCall := fun _ =>
    { image := ⟨rfl, rfl, by decide, by decide, by decide⟩
      inLen := by decide
      curLow := by decide
      curHigh := by decide
      outLen := by decide
      run := rfl
      filled := filledTo_nil
      prev := rfl
      atMost := by decide
      atLeast := by decide
      room := by decide }

/-- The record placed is the only difference. -/
theorem inv_placed (nbits w : Nat) : Inv (placed nbits w) where
  memory := ⟨cellsRise_writeCells cellsRise_nil 14 _, cellsRise_nil, cellsRise_nil, cellsRise_nil⟩
  table := mapped_clear
  err := inv_runNext.err
  noOutput := inv_runNext.noOutput
  run := inv_runNext.run
  encodeCall := fun h => absurd (show inCall .encode runNext = true from h) (by decide)
  decodeCall := fun _ =>
    have h := inv_runNext.decodeCall (by decide)
    { image := ⟨h.image.channels, h.image.colorspace, h.image.width, h.image.height, h.image.capacity⟩
      inLen := h.inLen
      curLow := h.curLow
      curHigh := h.curHigh
      outLen := h.outLen
      run := h.run
      filled := h.filled
      prev := h.prev
      atMost := h.atMost
      atLeast := h.atLeast
      room := h.room }

theorem inv_encodingS7 : Inv (encoding pixelS7) where
  memory := by decide
  table := mapped_clear
  err := by decide
  noOutput := by decide
  run := by decide
  encodeCall := fun _ =>
    { image := ⟨rfl, rfl, by decide, by decide, by decide⟩
      inLen := rfl
      cur := by decide
      prev := rfl
      pending := by decide
      pendingEqual := fun j h => absurd h (Nat.not_lt_zero j)
      filled := filledTo_writeCells filledTo_nil (fileS7.take 14)
      atMost := by decide
      atLeast := by decide
      room := by decide }
  decodeCall := fun h => absurd h (by decide)

theorem inv_encodeEnd : Inv encodeEnd where
  memory := by decide
  table := mapped_clear
  err := by decide
  noOutput := by decide
  run := by decide
  encodeCall := fun _ =>
    { image := ⟨rfl, rfl, by decide, by decide, by decide⟩
      inLen := rfl
      cur := by decide
      prev := rfl
      pending := by decide
      pendingEqual := fun j h _ => by
        obtain rfl : j = 0 := Nat.lt_one_iff.mp h
        rfl
      filled := filledTo_writeCells filledTo_nil _
      atMost := by decide
      atLeast := by decide
      room := by decide }
  decodeCall := fun h => absurd h (by decide)

theorem inv_decodeEnd : Inv decodeEnd where
  memory := by decide
  table := mapped_clear
  err := by decide
  noOutput := by decide
  run := by decide
  encodeCall := fun h => absurd h (by decide)
  decodeCall := fun _ =>
    { image := ⟨rfl, rfl, by decide, by decide, by decide⟩
      inLen := by decide
      curLow := by decide
      curHigh := by decide
      outLen := by decide
      run := rfl
      filled := filledTo_writeCells filledTo_nil [Config.startPixel]
      prev := rfl
      atMost := by decide
      atLeast := by decide
      room := by decide }

theorem inv_not_busy {s : State} (hm : s.mem.wf) (ht : s.ht = clearTable) (h0 : s.status = ⟨.idle, .encode, .none⟩)
    (ho : s.outLen = 0) (hr : s.run = 0) : Inv s where
  memory := hm
  table := ht ▸ mapped_clear
  err := by simp [h0]
  noOutput := fun _ => ho
  run := by simp [hr]
  encodeCall := by simp [inCall, isBusy, h0]
  decodeCall := by simp [inCall, isBusy, h0]

theorem inv_loaded (p : Pixel) : Inv (loaded p) :=
  inv_not_busy ⟨cellsRise_nil, List.pairwise_singleton _ _, cellsRise_nil, cellsRise_nil⟩ rfl rfl rfl rfl

theorem inv_loadedFile (bs : List Byte) : Inv (loadedFile bs) :=
  inv_not_busy ⟨cellsRise_writeCells cellsRise_nil 0 bs, cellsRise_nil, cellsRise_nil, cellsRise_nil⟩ rfl rfl rfl rfl

theorem inv_decoding : Inv decoding where
  memory := by decide
  table := mapped_clear
  err := by decide
  noOutput := by decide
  run := by decide
  encodeCall := fun h => absurd h (by decide)
  decodeCall := fun _ =>
    { image := ⟨rfl, rfl, by decide, by decide, by decide⟩
      inLen := by decide
      curLow := by decide
      curHigh := by decide
      outLen := by decide
      run := rfl
      filled := filledTo_nil
      prev := rfl
      atMost := by decide
      atLeast := by decide
      room := by decide }

/-! ### Witnesses: for each statement with hypotheses, something that meets them, clause by clause at its bounds -/

/-- A step that answers a next state. -/
def goesOn (s : State) : Prop := step s = .next (nextOf (step s))

theorem witness_RgbRecord : ([1, 2] : List Byte).length ≠ 3 ∧ ([1, 2, 3, 4] : List Byte).length ≠ 3 := by decide
theorem witness_RgbaRecord : ([1, 2, 3] : List Byte).length ≠ 4 ∧ ([1, 2, 3, 4, 5] : List Byte).length ≠ 4 := by decide
theorem witness_IndexRecord : opINDEX 0 = .ok [0] ∧ opINDEX 63 = .ok [0x3F] ∧ opINDEX (-1) = .error .outOfRangePayload ∧
    opINDEX 64 = .error .outOfRangePayload := by decide
theorem witness_DiffRecord : opDIFF (-2) (-2) (-2) = .ok [0x40] ∧ opDIFF 1 1 1 = .ok [0x7F] ∧
    opDIFF 0 0 (-3) = .error .outOfRangePayload ∧ opDIFF 0 2 0 = .error .outOfRangePayload := by decide
theorem witness_LumaRecord : opLUMA (-32) (-8) (-8) = .ok [0x80, 0] ∧ opLUMA 31 7 7 = .ok [0xBF, 0xFF] ∧
    opLUMA (-33) 0 0 = .error .outOfRangePayload ∧ opLUMA 0 8 0 = .error .outOfRangePayload := by decide
theorem witness_RunRecord : opRUN 1 = .ok [0xC0] ∧ opRUN 62 = .ok [0xFD] ∧ opRUN 0 = .error .outOfRangePayload ∧
    opRUN 63 = .error .outOfRangePayload := by decide
/-- A run to the last pixel, and one of a pixel more. -/
theorem witness_RunRecord_room : runNext.outLen + 64 ≤ runNext.width.toNat * runNext.height.toNat ∧
    runNext.width.toNat * runNext.height.toNat < runNext.outLen + 65 := by decide
/-- A run of 62 past W*H, and the bounds of the counts. -/
theorem witness_RunRecord_overshoot : (1 ≤ 1 ∧ 1 ≤ 62) ∧ (1 ≤ 62 ∧ 62 ≤ 62) ∧ { runNext with width := 61 }.width.toNat *
    { runNext with width := 61 }.height.toNat < { runNext with width := 61 }.outLen + 62 := by decide
theorem witness_EveryRecordCompletes : Instr.wellFormed (.run 62) ∧ Instr.wellFormed (.luma (-32) 7 (-8)) ∧
    runNext.outLen + 62 ≤ runNext.width.toNat * runNext.height.toNat ∧
    { runNext with width := 1 }.outLen + 1 ≤ { runNext with width := 1 }.width.toNat * { runNext with width := 1 }.height.toNat := by
  decide
theorem witness_PixelByteOrder : inCall .encode State.reset = false ∧
    { State.reset with inbox := [writeIpixBytes 3 1 2 3 4] }.inbox = writeIpixBytes 3 1 2 3 4 :: [] := ⟨rfl, rfl⟩
theorem witness_RecordsWriteNoInput : exec (.run 62) runNext = .next (nextOf (exec (.run 62) runNext)) ∧
    (nextOf (exec (.run 62) runNext)).status.state = .busy := ⟨rfl, rfl⟩
theorem witness_HistoryFidelity : (0 : Slot) ≠ pixelHash pixelS7 ∧ pixelHash Config.startPixel ≠ pixelHash pixelS7 ∧
    tableGet clearTable (pixelHash Config.zeroPixel) = Config.zeroPixel := by decide
theorem witness_ReconUndoesDelta : pixelS7.a = Config.startPixel.a := rfl
theorem witness_Int32RoundTrip : toInt32be [0xFF, 0xFF, 0xFF, 0xFF] = .ok 0xFFFFFFFF ∧
    ([0, 0, 1, 0] : List Byte).length = 4 ∧ ([1, 2, 3] : List Byte).length ≠ 4 ∧ ([] : List Byte).length ≠ 4 := by decide
theorem witness_ConcatExtract : extract [0x0A, 0x0B, 0x0C, 0x0D] 1 3 = .ok [0x0B, 0x0C, 0x0D] ∧ extract [0x0A] 1 0 = .ok [] ∧
    extract [0x0A, 0x0B] 1 2 = .error .marshalArg ∧ extract [0x0A] (-1) 1 = .error .marshalArg ∧
    extract [0x0A] 0 (-1) = .error .marshalArg := by decide
theorem witness_PartitionChunks : ((∀ n ∈ ([1, 0, 2] : List Int), 0 ≤ n) ∧ ([1, 0, 2] : List Int).sum = 3) ∧
    ¬((∀ n ∈ ([4, -1] : List Int), 0 ≤ n) ∧ ([4, -1] : List Int).sum = 3) ∧
    ¬((∀ n ∈ ([1, 1] : List Int), 0 ≤ n) ∧ ([1, 1] : List Int).sum = 3) := by decide
theorem witness_HeaderRoundTrip : (fileS7.take 14).length = 14 := by decide
theorem witness_FirstByteMap : kind 0 = .index ∧ kind 0x3F = .index ∧ kind 0x40 = .diff ∧ kind 0x7F = .diff ∧
    kind 0x80 = .luma ∧ kind 0xBF = .luma ∧ kind 0xC0 = .run ∧ kind 0xFD = .run ∧ kind 0xFE = .rgb ∧ kind 0xFF = .rgba := by
  decide
theorem witness_DecodeEncode : Instr.wellFormed (.diff (-2) 1 0) ∧ Instr.wellFormed (.run 62) := by decide
theorem witness_EncodeDecode : decode [0xFE, 1, 2, 3, 9] = .ok (.rgb 1 2 3, [9]) := by decide
theorem witness_DecodedIsLegal : decode [0xFD] = .ok (.run 62, []) := by decide
theorem witness_DecodeRejectsOnlyShort : (kind 0xFE).length ≤ ([0xFE, 1, 2, 3] : List Byte).length ∧
    ([0xFE, 1, 2] : List Byte).length < (kind 0xFE).length := by decide
theorem witness_ProgramBytes : ∀ i ∈ [Instr.rgb 100 150 200, Instr.run 1], i.wellFormed := by decide
theorem witness_ConstructorsNeverClamp : Instr.wellFormed (.run 62) ∧ ¬Instr.wellFormed (.run 63) := by decide
theorem witness_ConstructorsNeverClamp_call : Inv (encoding pixelS7) ∧ inCall .encode (encoding pixelS7) ∧
    engineStep (encoding pixelS7) = .next (nextOf (engineStep (encoding pixelS7))) :=
  ⟨inv_encodingS7, by decide, rfl⟩
/-- RESET while BUSY, a start while BUSY, and a start of each kind while IDLE. -/
theorem witness_CommandAcceptance : runNext.status.state = .busy ∧ Command.startDecode ≠ .reset ∧
    (loaded pixelS7).inbox = .command .startEncode :: [] ∧ (loaded pixelS7).status.state ≠ .busy ∧
    (loadedFile fileS7).inbox = .command .startDecode :: [] ∧ (loadedFile fileS7).status.state ≠ .busy := by decide
theorem witness_ResetPutsRegisters : { runNext with inbox := [.command .reset] }.inbox = .command .reset :: [] ∧
    { runNext with inbox := [.hardwareReset] }.inbox = .hardwareReset :: [] := ⟨rfl, rfl⟩
theorem witness_StatusRegister : Inv runNext ∧ runNext.status.state ≠ .error ∧
    { runNext with inbox := [.writeStatus 0xFF] }.inbox = .writeStatus 0xFF :: [] :=
  ⟨inv_runNext, by decide, rfl⟩
theorem witness_OutputsForgotten : startDecode (loadedFile fileS7) = .next (nextOf (startDecode (loadedFile fileS7))) ∧
    startEncode (loaded pixelS7) = .next (nextOf (startEncode (loaded pixelS7))) ∧
    (nextOf (startEncode (loaded pixelS7))).outLen ≤ 14 := ⟨rfl, rfl, by decide⟩
theorem witness_NoStepUntilCommand : State.reset.inbox = [] ∧ State.reset.status.state ≠ .busy := by decide
/-- A forbidden write in each kind of call. -/
theorem witness_HostWrites : allowedByHost (.writeIbuf 14 0) runNext = false ∧
    allowedByHost (.writeIpix 0 pixelS7) (encoding pixelS7) = false ∧ allowedByHost (.writeInLen 0) runNext = false ∧
    allowedByHost (.writeInLen 0) State.reset ∧ allowedByHost (.writeIbuf 14 0) (encoding pixelS7) ∧
    allowedByHost (.writeIpix 0 pixelS7) runNext := by decide
theorem witness_RefusedOnlyByHost :
    step { runNext with inbox := [.writeWidth 3] } = .refused .hostWroteWhileBusy ∧
    step { loaded pixelS7 with obufCap := 26 } = .refused .outputBufferTooSmall ∧
    step { loadedFile fileS7 with opixCap := 0 } = .refused .outputBufferTooSmall := ⟨rfl, rfl, rfl⟩
theorem witness_NoPartialOutput : runNext.status.state ≠ .done ∧ (nextOf (step encodeEnd)).status = ⟨.done, .encode, .none⟩ ∧
    22 < (nextOf (step encodeEnd)).outLen ∧ readCell (nextOf (step encodeEnd)).mem.obuf 22 = some 1 ∧
    (nextOf (step decodeEnd)).status = ⟨.done, .decode, .none⟩ ∧ 0 < (nextOf (step decodeEnd)).outLen ∧
    readCell (nextOf (step decodeEnd)).mem.opix 0 = some Config.startPixel := by decide

/-- The conditions of the three outcomes of START_ENCODE: an illegal image, one too large, one accepted with just the room. -/
theorem witness_StartEncode : (loaded pixelS7).inbox = .command .startEncode :: [] ∧
    (loaded pixelS7).status.state ≠ .busy ∧
    ¬({ loaded pixelS7 with inLen := 2 }.inLen = (loaded pixelS7).width.toNat * (loaded pixelS7).height.toNat) ∧
    ((loaded pixelS7).channels = 4 ∧ (loaded pixelS7).colorspace = 0 ∧ (loaded pixelS7).width ≠ 0 ∧
      (loaded pixelS7).height ≠ 0 ∧ (loaded pixelS7).inLen = (loaded pixelS7).width.toNat * (loaded pixelS7).height.toNat) ∧
    ¬(loaded pixelS7).width.toNat * (loaded pixelS7).height.toNat ≤ 0 ∧
    (loaded pixelS7).width.toNat * (loaded pixelS7).height.toNat ≤ (loaded pixelS7).params.maxPixels ∧
    22 + 5 * ((loaded pixelS7).width.toNat * (loaded pixelS7).height.toNat) = (loaded pixelS7).obufCap := by decide

/-- A pixel that breaks no run, one that extends a run to 62, and one that breaks a run of 61. -/
theorem witness_PixelStep : inCall .encode (encoding pixelS7) ∧ (encoding pixelS7).inbox = [] ∧
    (encoding pixelS7).cur < (encoding pixelS7).inLen ∧ (encoding pixelS7).run.toNat ≤ 61 ∧
    { encoding pixelS7 with run := 61 }.run.toNat ≤ 61 ∧ pixRead (encoding pixelS7) 0 ≠ (encoding pixelS7).prev ∧
    pixRead (encoding Config.startPixel) 0 = (encoding Config.startPixel).prev := by decide
/-- The step of six bytes: a run flushed, then an RGBA literal. -/
theorem witness_PixelStepAtMostSixBytes : inCall .encode { encoding ⟨1, 2, 3, 4⟩ with run := 61 } ∧
    goesOn { encoding ⟨1, 2, 3, 4⟩ with run := 61 } ∧
    (nextOf (step { encoding ⟨1, 2, 3, 4⟩ with run := 61 })).outLen = (encoding ⟨1, 2, 3, 4⟩).outLen + 6 :=
  ⟨by decide, rfl, by decide⟩
/-- With a run of 1 and with none. -/
theorem witness_FinishEncode : inCall .encode encodeEnd ∧ encodeEnd.inbox = [] ∧ encodeEnd.cur = encodeEnd.inLen ∧
    encodeEnd.run = 1 ∧ { encodeEnd with run := 0 }.run.toNat ≤ 62 ∧ { encodeEnd with run := 62 }.run.toNat ≤ 62 := by decide

/-- The hypotheses of StartDecode, for the S7 file. -/
theorem witness_StartDecode : (loadedFile fileS7).inbox = .command .startDecode :: [] ∧
    (loadedFile fileS7).status.state ≠ .busy ∧
    ∀ a, a < (loadedFile fileS7).inLen → readCell (loadedFile fileS7).mem.ibuf a = some (fileS7.getD a 0) := by decide
/-- Each outcome of START_DECODE: a file of 13 bytes, a file of 21, MAX_PIXELS 0, and the S7 file. -/
theorem witness_StartDecode_clauses :
    (nextOf (step (loadedFile (fileS7.take 13)))).status = ⟨.error, .decode, .malformedHeader⟩ ∧
    (nextOf (step (loadedFile (fileS7.take 21)))).status = ⟨.error, .decode, .badSentinel⟩ ∧
    (nextOf (step { loadedFile fileS7 with params := { Config.defaultParams with maxPixels := 0 } })).status =
      ⟨.error, .decode, .capacity⟩ ∧
    min (1 * 1) (62 * ((loadedFile fileS7).inLen - 22)) ≤ (loadedFile fileS7).opixCap := by decide

/-- A record at the stream's end, a record one byte too long, and one that just fits. -/
theorem witness_RecordStep : inCall .decode decoding ∧ decoding.inbox = [] ∧
    decoding.outLen < decoding.width.toNat * decoding.height.toNat ∧
    ({ decoding with inLen := 22 }.cur : Int) ≥ ({ decoding with inLen := 22 }.inLen : Int) - 8 ∧
    ({ decoding with inLen := 25 }.cur : Int) + (kind (readIbuf decoding decoding.cur)).length > (25 : Int) - 8 ∧
    (decoding.cur : Int) + (kind (readIbuf decoding decoding.cur)).length ≤ (decoding.inLen : Int) - 8 := by decide
theorem witness_StepRunsDecodedRecord : Instr.wellFormed (.rgb 10 20 30) ∧ inCall .decode decoding ∧ decoding.inbox = [] ∧
    decoding.outLen < decoding.width.toNat * decoding.height.toNat ∧
    memRead decoding decoding.cur (Instr.rgb 10 20 30).length = encode (.rgb 10 20 30) ∧
    decoding.cur + (Instr.rgb 10 20 30).length + 8 ≤ decoding.inLen := by decide
theorem witness_FetchWordRuns : decodeTableWord 40 0x80281E14FF = some (.rgba 20 30 40 128) := by decide
/-- The whole stream used, and a byte left. -/
theorem witness_FinishDecode : inCall .decode decodeEnd ∧ decodeEnd.inbox = [] ∧
    decodeEnd.outLen = decodeEnd.width.toNat * decodeEnd.height.toNat ∧ 8 ≤ decodeEnd.inLen ∧
    (decodeEnd.cur : Int) = (decodeEnd.inLen : Int) - 8 ∧
    ({ decodeEnd with inLen := 24 }.cur : Int) ≠ ({ decodeEnd with inLen := 24 }.inLen : Int) - 8 := by decide
/-- A RUN and a record of another kind. -/
theorem witness_RecordStepAdvances : Inv runNext ∧ inCall .decode runNext ∧ runNext.inbox = [] ∧
    runNext.outLen < runNext.width.toNat * runNext.height.toNat ∧ goesOn runNext ∧
    (nextOf (step runNext)).status.state = .busy ∧ kind (readIbuf runNext runNext.cur) = .run ∧
    Inv decoding ∧ inCall .decode decoding ∧ goesOn decoding ∧ (nextOf (step decoding)).status.state = .busy ∧
    kind (readIbuf decoding decoding.cur) ≠ .run :=
  ⟨inv_runNext, by decide, rfl, by decide, rfl, by decide, by decide, inv_decoding, by decide, rfl, by decide, by decide⟩

theorem witness_StepKeepsInvariant : Inv (loaded pixelS7) ∧ goesOn (loaded pixelS7) := ⟨inv_loaded pixelS7, rfl⟩
theorem witness_InputsChangeOnlyByHost : goesOn runNext ∧ (∀ a v, runNext.inbox.head? ≠ some (.writeIbuf a v)) ∧
    ∀ i p, runNext.inbox.head? ≠ some (.writeIpix i p) := ⟨rfl, fun _ _ => nofun, fun _ _ => nofun⟩
/-- A start, an end, and a change of MODE. -/
theorem witness_OnlyTheseEventsChangeState : goesOn (loadedFile fileS7) ∧ (loadedFile fileS7).status.state ≠ .busy ∧
    (nextOf (step (loadedFile fileS7))).status.state = .busy ∧
    (nextOf (step (loadedFile fileS7))).status.mode ≠ (loadedFile fileS7).status.mode ∧ goesOn decodeEnd ∧
    decodeEnd.status.state = .busy ∧ (nextOf (step decodeEnd)).status.state ≠ .busy :=
  ⟨rfl, by decide, by decide, by decide, rfl, by decide, by decide⟩
theorem witness_OutputBytesStay : Inv (encoding pixelS7) ∧ inCall .encode (encoding pixelS7) ∧
    (encoding pixelS7).inbox = [] ∧ goesOn (encoding pixelS7) := ⟨inv_encodingS7, by decide, rfl, rfl⟩
/-- The finish step of each kind of call. -/
theorem witness_SizeBounds : Inv encodeEnd ∧ encodeEnd.status.state = .busy ∧ encodeEnd.inbox = [] ∧ goesOn encodeEnd ∧
    (nextOf (step encodeEnd)).status = ⟨.done, .encode, .none⟩ ∧
    Inv decodeEnd ∧ decodeEnd.status.state = .busy ∧ decodeEnd.inbox = [] ∧ goesOn decodeEnd ∧
    (nextOf (step decodeEnd)).status = ⟨.done, .decode, .none⟩ :=
  ⟨inv_encodeEnd, by decide, rfl, rfl, by decide, inv_decodeEnd, by decide, rfl, rfl, by decide⟩
theorem witness_EncodeCallEnds : Inv (encoding pixelS7) ∧ inCall .encode (encoding pixelS7) ∧ (encoding pixelS7).inbox = [] :=
  ⟨inv_encodingS7, by decide, rfl⟩
theorem witness_DecodeCallEnds : Inv decoding ∧ inCall .decode decoding ∧ decoding.inbox = [] :=
  ⟨inv_decoding, by decide, rfl⟩

theorem lockStep_start : Claims.LockStep (encoding pixelS7) decoding where
  encoder := by decide
  decoder := by decide
  prev := rfl
  table := rfl
  produced := rfl
  pixels := fun i h => absurd h (Nat.not_lt_zero i)
  cursor := rfl
  room := ⟨rfl, rfl, rfl⟩
  quiet := ⟨rfl, rfl⟩

/-- The S7 image being encoded and the S7 file being decoded. -/
theorem witness_LockStepKept : Inv (encoding pixelS7) ∧ Inv decoding ∧ Claims.LockStep (encoding pixelS7) decoding ∧
    (encoding pixelS7).cur < (encoding pixelS7).inLen ∧ goesOn (encoding pixelS7) ∧
    (∀ a, a < (nextOf (step (encoding pixelS7))).outLen →
      readCell (nextOf (step (encoding pixelS7))).mem.obuf a = some (readIbuf decoding a)) ∧
    (nextOf (step (encoding pixelS7))).outLen + 8 ≤ decoding.inLen :=
  ⟨inv_encodingS7, inv_decoding, lockStep_start, by decide, rfl, by decide, by decide⟩

/-- The S7 image and the S7 file again: the decoder's input is what the host reads of the encoder's output. -/
theorem witness_RoundTrip : Inv (loaded pixelS7) ∧ Inv (loadedFile fileS7) ∧
    (loaded pixelS7).inbox = [.command .startEncode] ∧ (loadedFile fileS7).inbox = [.command .startDecode] ∧
    (loadedFile fileS7).params = (loaded pixelS7).params ∧ readCell (loaded pixelS7).mem.ipix 0 = some pixelS7 ∧
    (nextOf (step (nextOf (step (encoding pixelS7))))).outLen = (loadedFile fileS7).inLen ∧
    (∀ a, a < 26 → readCell (loadedFile fileS7).mem.ibuf a =
      some (hostReadObuf (nextOf (step (nextOf (step (encoding pixelS7))))) a)) ∧ 1 ≤ (loadedFile fileS7).opixCap :=
  ⟨inv_loaded pixelS7, inv_loadedFile fileS7, rfl, rfl, rfl, rfl, by decide, by decide, by decide⟩

/-- A state with a history and another history: the same image. -/
theorem witness_EncodeDependsOnInputsOnly :
    { loaded pixelS7 with prev := pixelS7, run := 5, cur := 9, outLen := 3 }.inbox = [.command .startEncode] ∧
    (∀ i, i < (loaded pixelS7).inLen → readCell (loaded pixelS7).mem.ipix i = some pixelS7) ∧
    22 + 5 * ((loaded pixelS7).width.toNat * (loaded pixelS7).height.toNat) ≤ (loaded pixelS7).obufCap := by decide
theorem witness_DecodeDependsOnInputsOnly :
    { loadedFile fileS7 with prev := pixelS7, run := 5, cur := 9, outLen := 3 }.inbox = [.command .startDecode] ∧
    (∀ i, i < (loadedFile fileS7).inLen → readCell (loadedFile fileS7).mem.ibuf i = some (fileS7.getD i 0)) ∧
    decodeStartHeader (loadedFile fileS7) = .ok ⟨[0x71, 0x6F, 0x69, 0x66], 1, 1, 4, 0⟩ ∧
    min (1 * 1) (62 * ((loadedFile fileS7).inLen - 22)) ≤ { loadedFile fileS7 with opixCap := 1 }.opixCap := by decide

end Sys2Proof.Tests
end

section
/-!
PROOF. The frame of one step over what the block only reads: the parameters and the two input buffers (spec/00_scope.md R7,
spec/20_memory.md R33, R49).
-/

namespace Sys2Proof.Machine

/-- The parameters and the input buffers of `t` are those of `s`. -/
structure KeepsInputs (s t : State) : Prop where
  params : t.params = s.params
  ibuf : t.mem.ibuf = s.mem.ibuf
  ipix : t.mem.ipix = s.mem.ipix

variable {s t u : State}

@[refl] theorem KeepsInputs.refl (s : State) : KeepsInputs s s := ⟨rfl, rfl, rfl⟩

theorem KeepsInputs.trans (h : KeepsInputs s t) (h' : KeepsInputs t u) : KeepsInputs s u :=
  ⟨h'.params.trans h.params, h'.ibuf.trans h.ibuf, h'.ipix.trans h.ipix⟩

/-! The shared updates of Ops.lean. -/

theorem keepsInputs_emit (bs : List Byte) (s : State) : KeepsInputs s (emit bs s) := ⟨rfl, rfl, rfl⟩

theorem keepsInputs_producePixel (px : Pixel) (len : Nat) (s : State) : KeepsInputs s (producePixel px len s) :=
  ⟨rfl, rfl, rfl⟩

theorem keepsInputs_raiseError (e : ErrorCode) (s : State) : KeepsInputs s (raiseError e s) := by
  constructor <;> simp

theorem keepsInputs_acceptStart (m : Mode) (s : State) : KeepsInputs s (acceptStart m s) := ⟨rfl, rfl, rfl⟩

theorem keepsInputs_resetRegisters (s : State) : KeepsInputs s (resetRegisters s) := ⟨rfl, rfl, rfl⟩

/-- The error branch of a step keeps the inputs, so only its successful branch has to be looked at. -/
theorem keepsInputs_of_settle_map {r : Except ErrorCode State} {f : State → State}
    (hr : ∀ u, r = .ok u → KeepsInputs s (f u)) (h : settle s (r.map f) = .next t) : KeepsInputs s t := by
  cases r with
  | ok u =>
    cases h
    exact hr u rfl
  | error e =>
    cases h
    exact keepsInputs_raiseError e s

/-! The encoder's steps. RUN may hold any value here, so the constructor of a RUN record may fail. -/

theorem keepsInputs_of_emitRecord {r : Except ErrorCode (List Byte)} (h : emitRecord r s = .ok t) : KeepsInputs s t := by
  cases r with
  | ok bs =>
    cases h
    exact keepsInputs_emit bs s
  | error e => cases h

theorem keepsInputs_of_emitRun (h : emitRun s = .ok t) : KeepsInputs s t := by
  unfold emitRun at h
  split at h
  · next u hu =>
    cases h
    exact (keepsInputs_of_emitRecord hu).trans ⟨rfl, rfl, rfl⟩
  · cases h

theorem keepsInputs_of_flushRun (h : flushRun s = .ok t) : KeepsInputs s t := by
  unfold flushRun at h
  split at h
  · cases h
    rfl
  · exact keepsInputs_of_emitRun h

theorem keepsInputs_of_absorbPixel (h : absorbPixel s = .ok t) : KeepsInputs s t := by
  have hrun : KeepsInputs s { s with run := s.run + 1 } := ⟨rfl, rfl, rfl⟩
  unfold absorbPixel at h
  dsimp only at h
  split at h
  · exact hrun.trans (keepsInputs_of_emitRun h)
  · cases h
    exact hrun

theorem keepsInputs_of_emitPixel {p : Pixel} (h : emitPixel p s = .ok t) : KeepsInputs s t := by
  unfold emitPixel at h
  split at h
  · cases h
  · next u hu =>
    split at h
    · cases h
    · next v hv =>
      cases h
      have hkeep := (keepsInputs_of_flushRun hu).trans (keepsInputs_of_emitRecord hv)
      exact hkeep.trans ⟨rfl, rfl, rfl⟩

theorem keepsInputs_of_pixelStep (h : pixelStep s = .next t) : KeepsInputs s t := by
  refine keepsInputs_of_settle_map (fun u hu => ?_) h
  have hkeep : KeepsInputs s u := by
    split at hu
    · exact keepsInputs_of_absorbPixel hu
    · exact keepsInputs_of_emitPixel hu
  exact hkeep.trans ⟨rfl, rfl, rfl⟩

theorem keepsInputs_of_finishEncode (h : finishEncode s = .next t) : KeepsInputs s t := by
  refine keepsInputs_of_settle_map (fun u hu => ?_) h
  exact (keepsInputs_of_flushRun hu).trans ⟨rfl, rfl, rfl⟩

theorem keepsInputs_of_encodeCallStep (h : encodeCallStep s = .next t) : KeepsInputs s t := by
  unfold encodeCallStep at h
  split at h
  · exact keepsInputs_of_pixelStep h
  · split at h
    · exact keepsInputs_of_finishEncode h
    · cases h
      rfl

theorem keepsInputs_of_startEncode (h : startEncode s = .next t) : KeepsInputs s t := by
  refine (keepsInputs_acceptStart .encode s).trans ?_
  unfold startEncode at h
  dsimp only at h
  split at h
  · cases h
    exact keepsInputs_raiseError _ _
  · split at h
    · cases h
    · cases h
      exact ⟨rfl, rfl, rfl⟩

/-! The decoder's steps. -/

theorem keepsInputs_of_exec {i : Instr} (h : exec i s = .next t) : KeepsInputs s t := by
  obtain ⟨px, -, hx⟩ | ⟨n, -, -, hx⟩ | ⟨n, -, -, hx⟩ := exec_cases i s <;> cases hx.symm.trans h
  · exact keepsInputs_producePixel px i.length s
  · exact ⟨rfl, rfl, rfl⟩
  · exact keepsInputs_raiseError _ s

theorem keepsInputs_of_recordStep (h : recordStep s = .next t) : KeepsInputs s t := by
  have hspec := recordStep_spec s
  split at hspec
  · obtain ⟨i, -, -, hexec⟩ := hspec
    exact keepsInputs_of_exec (hexec.symm.trans h)
  · cases hspec.symm.trans h
    exact keepsInputs_raiseError _ s

theorem keepsInputs_of_finishDecode (h : finishDecode s = .next t) : KeepsInputs s t := by
  unfold finishDecode at h
  split at h
  · cases h
    exact keepsInputs_raiseError _ s
  · cases h
    exact ⟨rfl, rfl, rfl⟩

theorem keepsInputs_of_decodeCallStep (h : decodeCallStep s = .next t) : KeepsInputs s t := by
  unfold decodeCallStep at h
  split at h
  · exact keepsInputs_of_recordStep h
  · split at h
    · exact keepsInputs_of_finishDecode h
    · cases h
      rfl

theorem keepsInputs_of_startDecode (h : startDecode s = .next t) : KeepsInputs s t := by
  refine (keepsInputs_acceptStart .decode s).trans ?_
  unfold startDecode at h
  dsimp only at h
  split at h
  · cases h
    exact keepsInputs_raiseError _ _
  · split at h
    · cases h
    · cases h
      exact ⟨rfl, rfl, rfl⟩

/-! The engine and the host's actions. -/

/-- The engine reads its inputs and never writes them (R49). -/
theorem keepsInputs_of_engineStep (h : engineStep s = .next t) : KeepsInputs s t := by
  unfold engineStep at h
  split at h
  · exact keepsInputs_of_encodeCallStep h
  · exact keepsInputs_of_decodeCallStep h
  all_goals
    cases h
    rfl

theorem keepsInputs_of_acceptCommand {c : Command} (h : acceptCommand c s = .next t) : KeepsInputs s t := by
  cases c with
  | reset =>
    cases h
    exact keepsInputs_resetRegisters s
  | startEncode =>
    simp only [acceptCommand] at h
    split at h
    · cases h
      rfl
    · exact keepsInputs_of_startEncode h
  | startDecode =>
    simp only [acceptCommand] at h
    split at h
    · cases h
      rfl
    · exact keepsInputs_of_startDecode h

/-- A host write that is not refused has its effect. -/
theorem eq_of_hostWrite {forbidden : Bool} (h : hostWrite forbidden u = .next t) : t = u := by
  unfold hostWrite at h
  split at h
  · cases h
  · cases h
    rfl

/-- What a host action may change of the parameters and the input buffers: IBUF and IPIX, each by its own write. -/
structure WritesOnlyInput (a : HostAction) (s t : State) : Prop where
  params : t.params = s.params
  ibuf : (∀ addr v, a ≠ .writeIbuf addr v) → t.mem.ibuf = s.mem.ibuf
  ipix : (∀ idx p, a ≠ .writeIpix idx p) → t.mem.ipix = s.mem.ipix

theorem KeepsInputs.writesOnlyInput (h : KeepsInputs s t) (a : HostAction) : WritesOnlyInput a s t :=
  ⟨h.params, fun _ => h.ibuf, fun _ => h.ipix⟩

theorem writesOnlyInput_of_hostStep {a : HostAction} (h : hostStep a s = .next t) : WritesOnlyInput a s t := by
  cases a with
  | pause => exact (keepsInputs_of_engineStep h).writesOnlyInput _
  | command c => exact (keepsInputs_of_acceptCommand h).writesOnlyInput _
  | hardwareReset =>
    cases h
    exact (keepsInputs_resetRegisters s).writesOnlyInput _
  | writeStatus v =>
    cases h
    exact (KeepsInputs.refl s).writesOnlyInput _
  | writeIbuf addr v =>
    cases eq_of_hostWrite h
    exact ⟨rfl, fun hne => absurd rfl (hne addr v), fun _ => rfl⟩
  | writeIpix idx p =>
    cases eq_of_hostWrite h
    exact ⟨rfl, fun _ => rfl, fun hne => absurd rfl (hne idx p)⟩
  | writeWidth | writeHeight | writeChannels | writeColorspace | writeInLen | provideObuf | provideOpix | writeObuf
  | writeOpix =>
    cases eq_of_hostWrite h
    exact ⟨rfl, fun _ => rfl, fun _ => rfl⟩

/-- Settles O47: with the host idle the engine steps and keeps the inputs; else the next host action decides. -/
theorem inputsChangeOnlyByHost : Obligations.InputsChangeOnlyByHost := by
  intro s t h
  cases hin : s.inbox with
  | nil =>
    obtain ⟨hparams, hibuf, hipix⟩ := keepsInputs_of_engineStep ((step_of_quiet hin).symm.trans h)
    exact ⟨hparams, fun _ => hibuf, fun _ => hipix⟩
  | cons a rest =>
    obtain ⟨hparams, hibuf, hipix⟩ := writesOnlyInput_of_hostStep ((step_of_action hin).symm.trans h)
    exact ⟨hparams, fun hne => hibuf fun addr v ha => hne addr v (congrArg some ha),
      fun hne => hipix fun idx p ha => hne idx p (congrArg some ha)⟩

end Sys2Proof.Machine
end

section
/-!
PROOF. What each step of the block can answer, said once: the two starts, the steps of the sequencers, the engine, and the
writes of the host. Every statement about all steps is a case analysis over these.
-/

namespace Sys2Proof.Machine

variable {s t u : State}

/-! The encoder (spec/43_encoder.md). RUN may hold any value in the lemmas of `flushRun`, so its constructor may fail. -/

/-- Emitting no bytes changes nothing. -/
@[simp] theorem emit_nil (s : State) : emit [] s = s := rfl

theorem emitRecord_eq_ok {r : Except ErrorCode (List Byte)} (h : emitRecord r s = .ok t) : ∃ bs, t = emit bs s := by
  cases r with
  | ok bs => exact ⟨bs, (Except.ok.inj h).symm⟩
  | error e => cases h

theorem emitRun_eq_ok (h : emitRun s = .ok t) : ∃ bs, t = { emit bs s with run := 0 } := by
  unfold emitRun at h
  split at h
  · next u hu =>
    obtain ⟨bs, rfl⟩ := emitRecord_eq_ok hu
    exact ⟨bs, (Except.ok.inj h).symm⟩
  · cases h

theorem flushRun_eq_ok (h : flushRun s = .ok t) : ∃ bs r, t = { emit bs s with run := r } := by
  unfold flushRun at h
  split at h
  · exact ⟨[], s.run, (Except.ok.inj h).symm⟩
  · obtain ⟨bs, rfl⟩ := emitRun_eq_ok h
    exact ⟨bs, 0, rfl⟩

theorem absorbPixel_eq_ok (h : absorbPixel s = .ok t) : ∃ bs r, t = { emit bs s with run := r } := by
  unfold absorbPixel at h
  dsimp only at h
  split at h
  · obtain ⟨bs, rfl⟩ := emitRun_eq_ok h
    exact ⟨bs, 0, rfl⟩
  · exact ⟨[], s.run + 1, (Except.ok.inj h).symm⟩

theorem emitPixel_eq_ok {p : Pixel} (h : emitPixel p s = .ok t) :
    ∃ bs r ht, t = { emit bs s with run := r, ht := ht } := by
  unfold emitPixel at h
  split at h
  · cases h
  · next u hu =>
    obtain ⟨bs, r, rfl⟩ := flushRun_eq_ok hu
    split at h
    · cases h
    · next v hv =>
      obtain ⟨bs', rfl⟩ := emitRecord_eq_ok hv
      refine ⟨bs ++ bs', r, storeAfter (ladder { emit bs s with run := r } p) p s.ht, ?_⟩
      rw [← emit_emit]
      exact (Except.ok.inj h).symm

/-- A settled step raised an error in the state before it, or its computation succeeded. -/
theorem settle_map_cases {r : Except ErrorCode State} {f : State → State} (h : settle s (r.map f) = .next t) :
    (∃ e, t = raiseError e s) ∨ ∃ u, r = .ok u ∧ t = f u := by
  cases r with
  | ok u =>
    cases h
    exact .inr ⟨u, rfl, rfl⟩
  | error e =>
    cases h
    exact .inl ⟨e, rfl⟩

/-- From any state a pixel step raises an error, or appends bytes to OBUF and writes RUN, HT, PREV and CUR (R101). -/
theorem pixelStep_eq_next (h : pixelStep s = .next t) :
    (∃ e, t = raiseError e s) ∨
      ∃ bs r ht p, t = { emit bs s with run := r, ht := ht, prev := p, cur := s.cur + 1 } := by
  refine (settle_map_cases h).imp_right ?_
  rintro ⟨u, hu, rfl⟩
  split at hu
  · obtain ⟨bs, r, rfl⟩ := absorbPixel_eq_ok hu
    exact ⟨bs, r, s.ht, _, rfl⟩
  · obtain ⟨bs, r, ht, rfl⟩ := emitPixel_eq_ok hu
    exact ⟨bs, r, ht, _, rfl⟩

/-- From any state a finish step raises an error, or appends bytes to OBUF, writes RUN and ends the call (R111). -/
theorem finishEncode_eq_next (h : finishEncode s = .next t) :
    (∃ e, t = raiseError e s) ∨
      ∃ bs r, t = { emit bs s with run := r, status := { s.status with state := .done } } := by
  refine (settle_map_cases h).imp_right ?_
  rintro ⟨u, hu, rfl⟩
  obtain ⟨bs, r, rfl⟩ := flushRun_eq_ok hu
  refine ⟨bs ++ s.params.sentinel.toList, r, ?_⟩
  rw [← emit_emit]
  rfl

/-- `s` after one more pixel equal to PREV has joined the run (R102). -/
def absorbed (s : State) : State := { s with run := s.run + 1, cur := s.cur + 1 }

/-- `s` after the record of the pending run, if there is one, is out (R103). -/
def flushed (s : State) : State := { emit (runBytes s.run) s with run := 0 }

/-- `s`, with no run pending, after pixel CUR is consumed by the record the ladder chooses (R101, R104 to R110). -/
def recorded (s : State) : State :=
  { emit (encode (ladder s (pixRead s s.cur))) s with
    ht := tablePut s.ht (pixRead s s.cur), prev := pixRead s s.cur, cur := s.cur + 1 }

/-- With a run below its maximum a pixel step absorbs the pixel, absorbs it and flushes the full run, or flushes the pending
run and emits a record (R101 to R110). -/
theorem pixelStep_cases (h : s.run.toNat ≤ 61) :
    (pixRead s s.cur = s.prev ∧ s.run.toNat < 61 ∧ pixelStep s = .next (absorbed s)) ∨
    (pixRead s s.cur = s.prev ∧ s.run.toNat = 61 ∧ pixelStep s = .next (flushed (absorbed s))) ∨
    (pixRead s s.cur ≠ s.prev ∧ pixelStep s = .next (recorded (flushed s))) := by
  by_cases hp : pixRead s s.cur = s.prev
  · rcases Nat.lt_or_eq_of_le h with hlt | heq
    · exact .inl ⟨hp, hlt, pixelStep_absorb hp hlt⟩
    · refine .inr (.inl ⟨hp, heq, (pixelStep_flush hp heq).trans ?_⟩)
      have hrun : s.run = 61 := BitVec.eq_of_toNat_eq (by simpa using heq)
      simp [flushed, absorbed, runBytes, encode, hrun, emit]
  · refine .inr (.inr ⟨hp, (pixelStep_emit hp (by omega)).trans ?_⟩)
    rw [← emit_emit, storeAfter_ladder]
    rfl

/-- An image is legal by the image registers and the parameters alone. -/
theorem ImageLegal.of_eq (h : ImageLegal s) (hw : t.width = s.width) (hh : t.height = s.height)
    (hch : t.channels = s.channels) (hcs : t.colorspace = s.colorspace) (hp : t.params = s.params) : ImageLegal t where
  channels := hch ▸ h.channels
  colorspace := hcs ▸ h.colorspace
  width := hw ▸ h.width
  height := hh ▸ h.height
  capacity := by
    rw [pixelCount, hw, hh, hp]
    exact h.capacity

/-- The checks of START_ENCODE pass exactly for a legal image of IN_LEN pixels (R100). -/
theorem encodeStartError_eq_none_iff : encodeStartError s = none ↔ ImageLegal s ∧ s.inLen = pixelCount s := by
  constructor
  · intro h
    unfold encodeStartError at h
    split_ifs at h with hch hcs hzero hlen hcap
    simp only [Bool.not_eq_true', Bool.not_eq_false, not_or, not_not, not_lt] at hch hcs hzero hlen hcap
    exact ⟨⟨hch, hcs, hzero.1, hzero.2, hcap⟩, hlen⟩
  · rintro ⟨⟨hch, hcs, hw, hh, hcap⟩, hlen⟩
    have hzero : ¬(s.width = 0 ∨ s.height = 0) := not_or.mpr ⟨hw, hh⟩
    rw [encodeStartError, hch, hcs, if_neg hzero, if_neg (not_not.mpr hlen), if_neg (Nat.not_lt.mpr hcap)]
    rfl

theorem encodeStartError_ne_some_none : encodeStartError s ≠ some .none := by
  unfold encodeStartError
  split_ifs <;> simp

/-- START_ENCODE: an error, or the header is written and the call begins; with too little room it is refused (R100). -/
theorem startEncode_cases (h : startEncode s = .next t) :
    (∃ e, e ≠ .none ∧ t = raiseError e (acceptStart .encode s)) ∨
    (ImageLegal s ∧ s.inLen = pixelCount s ∧ obufRoomNeeded s ≤ s.obufCap ∧
      t = emit (packHeader s.params.magic.toList s.width s.height s.channels s.colorspace)
        (beginCall 0 (acceptStart .encode s))) := by
  unfold startEncode at h
  dsimp only at h
  split at h
  · next e he =>
    cases h
    refine .inl ⟨e, ?_, rfl⟩
    rintro rfl
    exact encodeStartError_ne_some_none he
  · next he =>
    obtain ⟨himage, hlen⟩ := encodeStartError_eq_none_iff.mp he
    split at h
    · cases h
    · next hroom =>
      cases h
      exact .inr ⟨himage.of_eq rfl rfl rfl rfl rfl, hlen, Nat.le_of_not_lt hroom, rfl⟩

/-! The decoder (spec/44_decoder.md). -/

theorem unpackHeader_eq_error {bs : List Byte} {e : ErrorCode} (h : unpackHeader bs = .error e) : e = .marshalArg := by
  unfold unpackHeader at h
  split at h
  · split at h
    · cases h
    · exact (Except.error.inj h).symm
  · exact (Except.error.inj h).symm

/-- A stream that ends in the sentinel has room for the header and the sentinel (R80). -/
theorem le_inLen_of_sentinelOk (h : sentinelOk s) : 22 ≤ s.inLen :=
  of_decide_eq_true (Bool.and_eq_true_iff.mp h).1

/-- What the checks of START_DECODE have found when they pass (R117). -/
structure HeaderAccepted (s : State) (h : Header) : Prop where
  channels : channelsLegal h.channels
  colorspace : colorspaceLegal h.colorspace
  width : h.width ≠ 0
  height : h.height ≠ 0
  sentinel : sentinelOk s
  capacity : h.width.toNat * h.height.toNat ≤ s.params.maxPixels

theorem headerAccepted_of_decodeStartHeader {hd : Header} (h : decodeStartHeader s = .ok hd) : HeaderAccepted s hd := by
  unfold decodeStartHeader at h
  split at h
  · cases h
  · split at h
    · cases h
    · split_ifs at h with hmagic hch hcs hzero hsent hcap
      obtain rfl := Except.ok.inj h
      simp only [Bool.not_eq_true', Bool.not_eq_false, not_or, not_lt] at hch hcs hzero hsent hcap
      exact ⟨hch, hcs, hzero.1, hzero.2, hsent, hcap⟩

theorem decodeStartHeader_ne_error_none : decodeStartHeader s ≠ .error .none := by
  intro h
  unfold decodeStartHeader at h
  split at h
  · cases h
  · split at h
    · next he =>
      cases h
      cases unpackHeader_eq_error he
    · split_ifs at h <;> cases h

/-- START_DECODE: an error, or the image registers take the header's fields and the call begins; with too little room it is
refused (R117, R118). -/
theorem startDecode_cases (h : startDecode s = .next t) :
    (∃ e, e ≠ .none ∧ t = raiseError e (acceptStart .decode s)) ∨
    (∃ hd, HeaderAccepted (acceptStart .decode s) hd ∧ opixRoomNeeded hd s.inLen ≤ s.opixCap ∧
      t = beginCall 14 { acceptStart .decode s with
        width := hd.width, height := hd.height, channels := hd.channels, colorspace := hd.colorspace }) := by
  unfold startDecode at h
  dsimp only at h
  split at h
  · next e he =>
    cases h
    refine .inl ⟨e, ?_, rfl⟩
    rintro rfl
    exact decodeStartHeader_ne_error_none he
  · next hd hok =>
    split at h
    · cases h
    · next hroom =>
      cases h
      exact .inr ⟨hd, headerAccepted_of_decodeStartHeader hok, Nat.le_of_not_lt hroom, rfl⟩

/-- The finish step of a decode call: DIMENSION_MISMATCH, or DONE (R124). -/
theorem finishDecode_cases (h : finishDecode s = .next t) :
    t = raiseError .dimensionMismatch s ∨ t = { s with status := { s.status with state := .done } } := by
  unfold finishDecode at h
  split at h
  · exact .inl (Host.Outcome.next.inj h).symm
  · exact .inr (Host.Outcome.next.inj h).symm

/-! The host's side (spec/70_reset_and_hazards.md R150 to R154). -/

/-- A host write answers its effect unless R154 forbids it. -/
theorem hostWrite_eq_next_iff {forbidden : Bool} : hostWrite forbidden u = .next t ↔ forbidden = false ∧ t = u := by
  cases forbidden <;> simp [hostWrite, eq_comm]

theorem acceptCommand_of_busy {c : Command} (hb : s.status.state = .busy) (hc : c ≠ .reset) :
    acceptCommand c s = .next s := by
  cases c with
  | reset => exact absurd rfl hc
  | startEncode | startDecode => simp [acceptCommand, isBusy, hb]

theorem acceptCommand_startEncode (hb : s.status.state ≠ .busy) : acceptCommand .startEncode s = startEncode s := by
  simp [acceptCommand, isBusy, hb]

theorem acceptCommand_startDecode (hb : s.status.state ≠ .busy) : acceptCommand .startDecode s = startDecode s := by
  simp [acceptCommand, isBusy, hb]

/-- What a command can do: a reset, nothing while BUSY, or the start step of its call (R17). -/
theorem acceptCommand_cases {c : Command} (h : acceptCommand c s = .next t) :
    (c = .reset ∧ t = resetRegisters s) ∨ (s.status.state = .busy ∧ c ≠ .reset ∧ t = s) ∨
    (s.status.state ≠ .busy ∧ c = .startEncode ∧ startEncode s = .next t) ∨
    (s.status.state ≠ .busy ∧ c = .startDecode ∧ startDecode s = .next t) := by
  by_cases hc : c = .reset
  · subst hc
    exact .inl ⟨rfl, (Host.Outcome.next.inj h).symm⟩
  · by_cases hb : s.status.state = .busy
    · rw [acceptCommand_of_busy hb hc] at h
      exact .inr (.inl ⟨hb, hc, (Host.Outcome.next.inj h).symm⟩)
    · cases c with
      | reset => exact absurd rfl hc
      | startEncode => exact .inr (.inr (.inl ⟨hb, rfl, (acceptCommand_startEncode hb).symm.trans h⟩))
      | startDecode => exact .inr (.inr (.inr ⟨hb, rfl, (acceptCommand_startDecode hb).symm.trans h⟩))

end Sys2Proof.Machine
end

section
/-!
PROOF. The records between encoder and decoder (spec/30_encoding.md R51 to R65): what is encoded is decoded again, a decoded
record is legal, and the record the ladder chooses for a pixel produces that pixel (spec/43_encoder.md R104 to R108).
-/

namespace Sys2Proof

@[simp] theorem length_encode (i : Instr) : (encode i).length = i.length := by cases i <;> rfl

/-- The first byte of a legal record announces its kind (R58). -/
theorem kind_headD_encode {i : Instr} (h : i.wellFormed) : kind ((encode i).headD 0) = i.kind := by
  cases i with
  | rgb r g b => exact Option.some.inj (Laws.EncodedKind.rgb r g b h)
  | rgba r g b a => exact Option.some.inj (Laws.EncodedKind.rgba r g b a h)
  | index k => exact Option.some.inj (Laws.EncodedKind.index k h)
  | diff dr dg db => exact Option.some.inj (Laws.EncodedKind.diff dr dg db h)
  | luma dg drg dbg => exact Option.some.inj (Laws.EncodedKind.luma dg drg dbg h)
  | run n => exact Option.some.inj (Laws.EncodedKind.run n h)

/-- A RUN is legal for a count of 1 to 62 (R61). -/
theorem wellFormed_run_iff {n : Nat} : (Instr.run n).wellFormed ↔ 1 ≤ n ∧ n ≤ 62 := by
  simp [Instr.wellFormed, runRange]

/-- A record decodes as itself when its first byte announces its kind and its fields read back as its operands. -/
theorem decode_encode_append {i : Instr} (h : i.wellFormed) (rest : List Byte) :
    decode (encode i ++ rest) = .ok (i, rest) := by
  have hkind := kind_headD_encode h
  cases i with
  | rgb r g b => exact decode_rgb r g b rest hkind
  | rgba r g b a => exact decode_rgba r g b a rest hkind
  | index k =>
    refine (decode_index rest hkind).trans ?_
    have hk : BitVec.toFin (BitVec.ofNat 6 k.val) = k := by simp
    rw [indexOperand, encode, List.headD_cons, (bits_tag _ _).2, hk]
  | diff dr dg db =>
    simp only [Instr.wellFormed, diffRange, Bool.and_eq_true, decide_eq_true_eq] at h
    refine (decode_diff rest hkind).trans ?_
    obtain ⟨-, hr, hg, hb⟩ := bits_pairs 0b01#2 (biasField 2 dr 2) (biasField 2 dg 2) (biasField 2 db 2)
    rw [diffOperands, encode, List.headD_cons, hr, hg, hb]
    repeat rw [unbias_biasField (by omega) (by omega)]
  | luma dg drg dbg =>
    simp only [Instr.wellFormed, lumaGreenRange, lumaDiffRange, Bool.and_eq_true, decide_eq_true_eq] at h
    refine (decode_luma _ rest hkind).trans ?_
    rw [lumaOperands, encode, List.headD_cons, (bits_tag _ _).2, (bits_nibbles _ _).1, (bits_nibbles _ _).2]
    repeat rw [unbias_biasField (by omega) (by omega)]
  | run n =>
    obtain ⟨hlow, hhigh⟩ := wellFormed_run_iff.mp h
    refine (decode_run rest hkind).trans ?_
    have hn : (BitVec.ofNat 6 (n - 1)).toNat + 1 = n := by
      rw [BitVec.toNat_ofNat]
      omega
    rw [runOperand, encode, List.headD_cons, (bits_tag _ _).2, hn]

/-- The count of a byte that announces RUN is 1 to 62: the two patterns above it are the full-byte tags (R55, R58). -/
theorem runRange_runOperand (b0 : Byte) (h : kind b0 = .run) : runRange (runOperand b0) := by
  revert b0
  decide

theorem wellFormed_diffOperands (b0 : Byte) : (diffOperands b0).wellFormed := by
  revert b0
  decide

/-- An unbiased field lies in the range of its width (R61). -/
theorem unbias_range {w : Nat} (field : BitVec w) (bias : Int) :
    -bias ≤ unbias field bias ∧ unbias field bias < 2 ^ w - bias := by
  have hlt : (field.toNat : Int) < 2 ^ w := by exact_mod_cast field.isLt
  unfold unbias
  omega

theorem wellFormed_lumaOperands (b0 b1 : Byte) : (lumaOperands b0 b1).wellFormed := by
  have hg := unbias_range (bits b0 0 6) 32
  have hrg := unbias_range (bits b1 4 4) 8
  have hbg := unbias_range (bits b1 0 4) 8
  simp only [lumaOperands, Instr.wellFormed, lumaGreenRange, lumaDiffRange, Bool.and_eq_true, decide_eq_true_eq]
  omega

/-- Whatever decodes is a legal record (R62). -/
theorem wellFormed_of_decode {bs rest : List Byte} {i : Instr} (h : decode bs = .ok (i, rest)) : i.wellFormed := by
  unfold decode at h
  split at h
  · cases h
  · next b0 more =>
    split at h
    case h_1 | h_2 | h_3 =>
      cases h
      rfl
    case h_4 =>
      cases h
      exact wellFormed_diffOperands b0
    case h_5 =>
      cases h
      exact wellFormed_lumaOperands b0 _
    case h_6 hk =>
      cases h
      exact runRange_runOperand b0 hk
    case h_7 => cases h

end Sys2Proof

namespace Sys2Proof.Machine

/-- The record step executes the legal record whose bytes lie at CUR before the end of the stream (R119). -/
theorem recordStep_of_memRead_eq_encode {s : State} {i : Instr} (hw : i.wellFormed)
    (hbytes : memRead s s.cur i.length = encode i) (hend : s.cur + i.length ≤ streamEnd s) :
    recordStep s = exec i s := by
  have hkind : kind (readIbuf s s.cur) = i.kind := by
    obtain ⟨n, hn⟩ := Nat.exists_eq_add_of_le' (length_kind i.kind).1
    have h := kind_headD_encode hw
    rw [← hbytes, Instr.length, hn] at h
    exact h
  have hspec := recordStep_spec s
  rw [hkind, ← Instr.length, if_pos hend] at hspec
  obtain ⟨j, hj, -, hexec⟩ := hspec
  have hi := decode_encode_append hw []
  rw [List.append_nil, ← hbytes, hj] at hi
  cases hi
  exact hexec

/-- Two bytes differ by their signed difference modulo 256 (R88, R91). -/
theorem u8_add_channelDelta (x y : Byte) : u8 ((y.toNat : Int) + channelDelta x y) = x := by
  simp only [u8, s8, channelDelta, sub_eq_add_neg, BitVec.ofInt_add, BitVec.ofInt_neg, BitVec.ofInt_toInt, BitVec.ofInt_natCast,
    BitVec.ofNat_toNat, BitVec.setWidth_eq]
  rw [BitVec.add_comm x, ← BitVec.add_assoc, ← BitVec.sub_eq_add_neg, BitVec.sub_self, BitVec.zero_add]

/-- Moving by the deltas undoes taking them, where alpha is unchanged (R92). -/
theorem recon_delta {p q : Pixel} (ha : (delta p q).sameA) : recon q (delta p q).dr (delta p q).dg (delta p q).db = p := by
  have hA : p.a = q.a := of_decide_eq_true ha
  simp [recon, delta, u8_add_channelDelta, ← hA]

/-- The record the ladder chooses for a pixel, executed with the same PREV and HT, produces that pixel (R104 to R108, R114). -/
theorem exec_ladder {e d : State} (hprev : d.prev = e.prev) (hht : d.ht = e.ht) (p : Pixel) :
    exec (ladder e p) d = .next (producePixel p (ladder e p).length d) := by
  unfold ladder
  dsimp only
  split_ifs with hindex hdiff hluma ha
  · have hpx : indexPixel d.ht (pixelHash p) = p := hht ▸ hindex
    rw [exec, execIndex, hpx]
    rfl
  · have hpx : diffPixel d.prev (delta p e.prev).dr (delta p e.prev).dg (delta p e.prev).db = p := by
      simp only [diffOk, Bool.and_eq_true] at hdiff
      obtain ⟨⟨⟨hsame, -⟩, -⟩, -⟩ := hdiff
      rw [diffPixel, hprev, recon_delta hsame]
    rw [exec, execDiff, hpx]
    rfl
  · have hpx : lumaPixel d.prev (delta p e.prev).dg ((delta p e.prev).dr - (delta p e.prev).dg)
        ((delta p e.prev).db - (delta p e.prev).dg) = p := by
      simp only [lumaOk, Bool.and_eq_true] at hluma
      obtain ⟨⟨⟨hsame, -⟩, -⟩, -⟩ := hluma
      rw [lumaPixel, add_sub_cancel, add_sub_cancel, hprev, recon_delta hsame]
    rw [exec, execLuma, hpx]
    rfl
  · have hpx : rgbPixel d.prev p.r p.g p.b = p := by
      rw [rgbPixel, hprev, ← of_decide_eq_true ha]
    rw [exec, execRgb, hpx]
    rfl
  · rfl

end Sys2Proof.Machine
end

section
/-!
PROOF. The invariant of the block (Inv of Safety.lean; spec/10_state.md R18 to R29, spec/20_memory.md R35, R36): the reset
state has it and every step keeps it. A running encode call and a running decode call each keep their own part.
-/

namespace Sys2Proof.Machine

variable {s t : State}

/-! ### Building the invariant -/

/-- While no call runs the invariant says nothing of a call. -/
theorem inv_of_not_busy (hb : t.status.state ≠ .busy) (hmem : t.mem.wf) (htable : tableDirectMapped t.ht)
    (herr : t.status.err = .none ↔ t.status.state ≠ .error)
    (hout : t.status.state = .idle ∨ t.status.state = .error → t.outLen = 0) (hrun : t.run.toNat ≤ 61) : Inv t where
  memory := hmem
  table := htable
  err := herr
  noOutput := hout
  run := hrun
  encodeCall h := absurd (inCall_iff.mp h).1 hb
  decodeCall h := absurd (inCall_iff.mp h).1 hb

theorem inv_of_encodeCall (hstatus : t.status = ⟨.busy, .encode, .none⟩) (hmem : t.mem.wf)
    (htable : tableDirectMapped t.ht) (hrun : t.run.toNat ≤ 61) (hcall : EncodeCallInv t) : Inv t where
  memory := hmem
  table := htable
  err := by simp [hstatus]
  noOutput := by simp [hstatus]
  run := hrun
  encodeCall _ := hcall
  decodeCall h := by simp [inCall_iff, hstatus] at h

theorem inv_of_decodeCall (hstatus : t.status = ⟨.busy, .decode, .none⟩) (hmem : t.mem.wf)
    (htable : tableDirectMapped t.ht) (hrun : t.run.toNat ≤ 61) (hcall : DecodeCallInv t) : Inv t where
  memory := hmem
  table := htable
  err := by simp [hstatus]
  noOutput := by simp [hstatus]
  run := hrun
  encodeCall h := by simp [inCall_iff, hstatus] at h
  decodeCall _ := hcall

/-- In a running call STATUS holds BUSY, the mode and no error (R18). -/
theorem Inv.status_of_inCall (h : Inv s) {m : Mode} (hm : inCall m s) : s.status = ⟨.busy, m, .none⟩ := by
  obtain ⟨hbusy, hmode⟩ := inCall_iff.mp hm
  have herr : s.status.err = .none := h.err.mpr (by simp [hbusy])
  rw [← hbusy, ← hmode, ← herr]

theorem wf_emit (h : s.mem.wf) (bs : List Byte) : (emit bs s).mem.wf :=
  let ⟨hibuf, hipix, hobuf, hopix⟩ := h
  ⟨hibuf, hipix, cellsRise_writeCells hobuf _ _, hopix⟩

theorem wf_pixWrite (h : s.mem.wf) (ps : List Pixel) : (pixWrite ps s).mem.wf :=
  let ⟨hibuf, hipix, hobuf, hopix⟩ := h
  ⟨hibuf, hipix, hobuf, cellsRise_writeCells hopix _ _⟩

theorem wf_forgetOutputs (h : s.mem.wf) : (forgetOutputs s).mem.wf :=
  let ⟨hibuf, hipix, _, _⟩ := h
  ⟨hibuf, hipix, cellsRise_nil, cellsRise_nil⟩

theorem wf_raiseError (h : s.mem.wf) (e : ErrorCode) : (raiseError e s).mem.wf := by
  obtain ⟨hibuf, hipix, -, -⟩ := h
  simp [Memory.wf, hibuf, hipix]

/-- The error entry establishes the invariant whatever STATUS and OUT_LEN were (R136). -/
theorem inv_raiseError {e : ErrorCode} (he : e ≠ .none) (hmem : s.mem.wf) (htable : tableDirectMapped s.ht)
    (hrun : s.run.toNat ≤ 61) : Inv (raiseError e s) :=
  inv_of_not_busy (by simp) (wf_raiseError hmem e) (by simpa using htable) (by simp [he]) (by simp) (by simpa using hrun)

theorem Inv.raiseError (h : Inv s) {e : ErrorCode} (he : e ≠ .none) : Inv (raiseError e s) :=
  inv_raiseError he h.memory h.table h.run

theorem inv_resetRegisters (hmem : s.mem.wf) : Inv (resetRegisters s) :=
  inv_of_not_busy (by simp) (wf_forgetOutputs hmem) tableDirectMapped_clearTable (by simp) (by simp) (by simp)

/-! ### An encode call -/

/-- RUN counts one more, without wrap, below 63 (R26). -/
theorem toNat_run_add_one (h : s.run.toNat ≤ 62) : (s.run + 1).toNat = s.run.toNat + 1 :=
  BitVec.toNat_add_of_lt (show s.run.toNat + 1 < 64 by omega)

theorem length_runBytes (r : BitVec 6) : (runBytes r).length = if r = 0 then 0 else 1 := by
  unfold runBytes
  split <;> rfl

/-- A pixel equal to PREV joins the run (R102). -/
theorem EncodeCallInv.absorbed (h : EncodeCallInv s) (hp : pixRead s s.cur = s.prev) (hcur : s.cur < s.inLen)
    (hrun : s.run.toNat ≤ 62) : EncodeCallInv (absorbed s) := by
  have hr : (Machine.absorbed s).run.toNat = s.run.toNat + 1 := toNat_run_add_one hrun
  have hc : (Machine.absorbed s).cur = s.cur + 1 := rfl
  have hpend := h.pending
  have hmost := h.atMost
  have hleast := h.atLeast
  exact
    { image := h.image.of_eq rfl rfl rfl rfl rfl
      inLen := h.inLen
      cur := hcur
      prev := hp.symm
      pending := by omega
      pendingEqual := fun j hj hlast => by
        rcases Nat.lt_or_eq_of_le (Nat.le_of_lt_succ hj) with hlt | rfl
        · exact h.pendingEqual j hlt (by omega)
        · exact hp
      filled := h.filled
      atMost := show s.outLen + _ ≤ _ by omega
      atLeast := show _ ≤ 62 * s.outLen + _ by omega
      room := h.room }

/-- The pending run's record is one byte for up to 62 pixels (R103, R69). -/
theorem EncodeCallInv.flushed (h : EncodeCallInv s) (hrun : s.run.toNat ≤ 62) : EncodeCallInv (flushed s) := by
  have hout : (Machine.flushed s).outLen = s.outLen + (runBytes s.run).length := rfl
  have hr : (Machine.flushed s).run.toNat = 0 := rfl
  have hbytes : s.run.toNat ≤ 62 * (runBytes s.run).length ∧ (runBytes s.run).length ≤ s.run.toNat := by
    rw [length_runBytes]
    split
    · next h0 => simp [h0]
    · next h0 =>
      have : s.run.toNat ≠ 0 := fun h' => h0 (BitVec.eq_of_toNat_eq h')
      omega
  have hmost := h.atMost
  have hleast := h.atLeast
  exact
    { image := h.image.of_eq rfl rfl rfl rfl rfl
      inLen := h.inLen
      cur := h.cur
      prev := h.prev
      pending := Nat.zero_le _
      pendingEqual := fun j hj hlast => absurd hlast (Nat.not_le_of_lt hj)
      filled := filledTo_writeCells h.filled _
      atMost := show _ ≤ 14 + 5 * s.cur by omega
      atLeast := show 14 * 62 + s.cur ≤ _ by omega
      room := h.room }

/-- A record for one pixel has 1 to 5 bytes (R59, R69). -/
theorem EncodeCallInv.recorded (h : EncodeCallInv s) (hcur : s.cur < s.inLen) (hrun : s.run = 0) :
    EncodeCallInv (recorded s) := by
  obtain ⟨hlow, hhigh⟩ := length_kind (ladder s (pixRead s s.cur)).kind
  have hout : (Machine.recorded s).outLen = s.outLen + (ladder s (pixRead s s.cur)).kind.length :=
    congrArg (s.outLen + ·) (length_encode _)
  have h0 : s.run.toNat = 0 := congrArg BitVec.toNat hrun
  have hr : (Machine.recorded s).run.toNat = 0 := h0
  have hc : (Machine.recorded s).cur = s.cur + 1 := rfl
  have hmost := h.atMost
  have hleast := h.atLeast
  exact
    { image := h.image.of_eq rfl rfl rfl rfl rfl
      inLen := h.inLen
      cur := hcur
      prev := rfl
      pending := by omega
      pendingEqual := fun j hj hlast => absurd hlast (by omega)
      filled := filledTo_writeCells h.filled _
      atMost := by omega
      atLeast := by omega
      room := h.room }

theorem Inv.of_pixelStep (h : Inv s) (hcall : inCall .encode s) (hcur : s.cur < s.inLen)
    (hstep : pixelStep s = .next t) : Inv t := by
  have henc := h.encodeCall hcall
  have hstatus := h.status_of_inCall hcall
  have hrun := h.run
  obtain ⟨hp, hlt, hs⟩ | ⟨hp, heq, hs⟩ | ⟨hp, hs⟩ := pixelStep_cases h.run <;> cases hs.symm.trans hstep
  · refine inv_of_encodeCall hstatus h.memory h.table ?_ (henc.absorbed hp hcur (by omega))
    exact (toNat_run_add_one (by omega)).trans_le hlt
  · have hfull : (absorbed s).run.toNat ≤ 62 := (toNat_run_add_one (by omega)).trans_le (by omega)
    exact inv_of_encodeCall hstatus (wf_emit h.memory _) h.table (Nat.zero_le _)
      ((henc.absorbed hp hcur (by omega)).flushed hfull)
  · exact inv_of_encodeCall hstatus (wf_emit (wf_emit h.memory _) _) (tableDirectMapped_tablePut h.table _)
      (Nat.zero_le _) ((henc.flushed (by omega)).recorded hcur rfl)

theorem Inv.of_finishEncode (h : Inv s) (hcall : inCall .encode s) (hstep : finishEncode s = .next t) : Inv t := by
  have hrun := h.run
  have hstatus := h.status_of_inCall hcall
  cases (finishEncode_spec (by omega)).symm.trans hstep
  exact inv_of_not_busy (by simp) (wf_emit h.memory _) h.table (by simp [hstatus]) (by simp) (Nat.zero_le _)

theorem Inv.of_encodeCallStep (h : Inv s) (hcall : inCall .encode s) (hstep : encodeCallStep s = .next t) : Inv t := by
  unfold encodeCallStep at hstep
  split at hstep
  · next hcur => exact h.of_pixelStep hcall hcur hstep
  · split at hstep
    · exact h.of_finishEncode hcall hstep
    · cases hstep
      exact h

/-- A header has 14 bytes (R78). -/
theorem length_packHeader (magic : Vector Byte 4) (w h : Word32) (ch cs : Byte) :
    (packHeader magic.toList w h ch cs).length = 14 := by
  simp [packHeader, concat, fromInt32be]

theorem Inv.of_startEncode (h : Inv s) (hstep : startEncode s = .next t) : Inv t := by
  obtain ⟨e, he, rfl⟩ | ⟨himage, hlen, hroom, rfl⟩ := startEncode_cases hstep
  · exact inv_raiseError he (wf_forgetOutputs h.memory) h.table h.run
  · have hmem : (beginCall 0 (acceptStart .encode s)).mem.wf := wf_forgetOutputs h.memory
    refine inv_of_encodeCall (by simp) (wf_emit hmem _) tableDirectMapped_clearTable (by simp) ?_
    exact
      { image := himage.of_eq rfl rfl rfl rfl rfl
        inLen := hlen
        cur := Nat.zero_le _
        prev := rfl
        pending := Nat.zero_le _
        pendingEqual := fun j hj => absurd hj (Nat.not_lt_zero j)
        filled := filledTo_writeCells filledTo_nil _
        atMost := by simp [length_packHeader]
        atLeast := by simp [length_packHeader]
        room := hroom }

/-! ### A decode call -/

/-- A record of `len` bytes that appends the pixels `ps`, the last of which becomes PREV, keeps the invariant of the call, where
it ends before the sentinel and fits into W*H pixels (R69, R119, R122). -/
theorem DecodeCallInv.produce (h : DecodeCallInv s) {ps : List Pixel} {px : Pixel} {len : Nat} (ht : Vector Pixel 64)
    (hlast : ps.getLast? = some px) (hfit : s.outLen + ps.length ≤ pixelCount s) (hend : s.cur + len ≤ streamEnd s)
    (hlong : len ≤ 5 * ps.length) (hshort : ps.length ≤ 62 * len) :
    DecodeCallInv { pixWrite ps s with ht := ht, prev := px, cur := s.cur + len } := by
  have hpos : 0 < ps.length := List.length_pos_of_ne_nil (by rintro rfl; cases hlast)
  have hlen := h.inLen
  have hlow := h.curLow
  have hmost := h.atMost
  have hleast := h.atLeast
  rw [streamEnd] at hend
  exact
    { image := h.image.of_eq rfl rfl rfl rfl rfl
      inLen := h.inLen
      curLow := show 14 ≤ s.cur + len by omega
      curHigh := show s.cur + len + 8 ≤ s.inLen by omega
      outLen := hfit
      run := h.run
      filled := filledTo_writeCells h.filled ps
      prev := by
        rw [if_neg (by rw [pixWrite_outLen]; omega)]
        simp only [pixWrite_mem_opix, pixWrite_outLen]
        rw [readCell_writeCells, if_pos (by omega), ← hlast, List.getLast?_eq_getElem?]
        congr 1
        omega
      atMost := show s.cur + len ≤ 14 + 5 * (s.outLen + ps.length) by omega
      atLeast := show s.outLen + ps.length + 14 * 62 ≤ 62 * (s.cur + len) by omega
      room := h.room }

/-- Executing a legal record that ends before the sentinel keeps the invariant (R93 to R98). -/
theorem Inv.of_exec (h : Inv s) (hcall : inCall .decode s) (hleft : s.outLen < pixelCount s) {i : Instr} (hw : i.wellFormed)
    (hend : s.cur + i.length ≤ streamEnd s) (hstep : exec i s = .next t) : Inv t := by
  have hdec := h.decodeCall hcall
  have hstatus := h.status_of_inCall hcall
  obtain ⟨px, -, hs⟩ | ⟨n, rfl, hfit, hs⟩ | ⟨n, rfl, -, hs⟩ := exec_cases i s <;> cases hs.symm.trans hstep
  · obtain ⟨hlow, hhigh⟩ := length_kind i.kind
    exact inv_of_decodeCall hstatus (wf_pixWrite h.memory [px]) (tableDirectMapped_tablePut h.table px) h.run
      (hdec.produce (ps := [px]) _ rfl hleft hend hhigh (Nat.le_trans hlow (Nat.le_mul_of_pos_left _ (by decide))))
  · obtain ⟨hlow, hhigh⟩ := wellFormed_run_iff.mp hw
    obtain ⟨m, rfl⟩ := Nat.exists_eq_add_of_le' hlow
    exact inv_of_decodeCall hstatus (wf_pixWrite h.memory _) h.table h.run
      (hdec.produce (ps := List.replicate (m + 1) s.prev) (len := 1) s.ht (by simp [List.getLast?_replicate])
        (by simpa using hfit) hend (by rw [List.length_replicate]; omega) (by simpa using hhigh))
  · exact h.raiseError (by simp)

theorem Inv.of_recordStep (h : Inv s) (hcall : inCall .decode s) (hleft : s.outLen < pixelCount s)
    (hstep : recordStep s = .next t) : Inv t := by
  have hspec := recordStep_spec s
  split at hspec
  · next hend =>
    obtain ⟨i, hdecode, hkind, hexec⟩ := hspec
    exact h.of_exec hcall hleft (wellFormed_of_decode hdecode) (by rwa [Instr.length, hkind]) (hexec.symm.trans hstep)
  · cases hspec.symm.trans hstep
    exact h.raiseError (by simp)

theorem Inv.of_finishDecode (h : Inv s) (hcall : inCall .decode s) (hstep : finishDecode s = .next t) : Inv t := by
  have hstatus := h.status_of_inCall hcall
  obtain rfl | rfl := finishDecode_cases hstep
  · exact h.raiseError (by simp)
  · exact inv_of_not_busy (by simp) h.memory h.table (by simp [hstatus]) (by simp) h.run

theorem Inv.of_decodeCallStep (h : Inv s) (hcall : inCall .decode s) (hstep : decodeCallStep s = .next t) : Inv t := by
  unfold decodeCallStep at hstep
  split at hstep
  · next hleft => exact h.of_recordStep hcall hleft hstep
  · split at hstep
    · exact h.of_finishDecode hcall hstep
    · cases hstep
      exact h

theorem Inv.of_startDecode (h : Inv s) (hstep : startDecode s = .next t) : Inv t := by
  obtain ⟨e, he, rfl⟩ | ⟨hd, hacc, hroom, rfl⟩ := startDecode_cases hstep
  · exact inv_raiseError he (wf_forgetOutputs h.memory) h.table h.run
  · have hlen : 22 ≤ s.inLen := le_inLen_of_sentinelOk (s := acceptStart .decode s) hacc.sentinel
    refine inv_of_decodeCall (by simp) (wf_forgetOutputs h.memory) tableDirectMapped_clearTable (by simp) ?_
    exact
      { image := ⟨hacc.channels, hacc.colorspace, hacc.width, hacc.height, hacc.capacity⟩
        inLen := hlen
        curLow := Nat.le_refl 14
        curHigh := hlen
        outLen := Nat.zero_le _
        run := rfl
        filled := filledTo_nil
        prev := rfl
        atMost := Nat.le_refl 14
        atLeast := Nat.le_refl (14 * 62)
        room := hroom }

/-! ### The engine and the host's actions -/

theorem Inv.of_engineStep (h : Inv s) (hstep : engineStep s = .next t) : Inv t := by
  unfold engineStep at hstep
  split at hstep
  · next hbusy hmode => exact h.of_encodeCallStep (inCall_iff.mpr ⟨hbusy, hmode⟩) hstep
  · next hbusy hmode => exact h.of_decodeCallStep (inCall_iff.mpr ⟨hbusy, hmode⟩) hstep
  all_goals
    cases hstep
    exact h

theorem Inv.of_acceptCommand (h : Inv s) {c : Command} (hstep : acceptCommand c s = .next t) : Inv t := by
  obtain ⟨-, rfl⟩ | ⟨-, -, rfl⟩ | ⟨-, -, hs⟩ | ⟨-, -, hs⟩ := acceptCommand_cases hstep
  · exact inv_resetRegisters h.memory
  · exact h
  · exact h.of_startEncode hs
  · exact h.of_startDecode hs

/-- An encode call's invariant does not speak of IBUF, OPIX, the room of OPIX or the host's list. -/
theorem EncodeCallInv.of_unread (h : EncodeCallInv s) (ibuf : List Host.Cell) (opix : List (Nat × Pixel)) (room : Nat)
    (todo : List HostAction) :
    EncodeCallInv { s with mem := { s.mem with ibuf := ibuf, opix := opix }, opixCap := room, inbox := todo } where
  image := h.image.of_eq rfl rfl rfl rfl rfl
  inLen := h.inLen
  cur := h.cur
  prev := h.prev
  pending := h.pending
  pendingEqual := h.pendingEqual
  filled := h.filled
  atMost := h.atMost
  atLeast := h.atLeast
  room := h.room

/-- A decode call's invariant does not speak of IBUF, IPIX, OBUF, the room of OBUF or the host's list. -/
theorem DecodeCallInv.of_unread (h : DecodeCallInv s) (ibuf obuf : List Host.Cell) (ipix : List (Nat × Pixel)) (room : Nat)
    (todo : List HostAction) :
    DecodeCallInv { s with
      mem := { s.mem with ibuf := ibuf, ipix := ipix, obuf := obuf }, obufCap := room, inbox := todo } where
  image := h.image.of_eq rfl rfl rfl rfl rfl
  inLen := h.inLen
  curLow := h.curLow
  curHigh := h.curHigh
  outLen := h.outLen
  run := h.run
  filled := h.filled
  prev := h.prev
  atMost := h.atMost
  atLeast := h.atLeast
  room := h.room

/-- The invariant does not speak of the host's list. -/
theorem Inv.with_inbox (h : Inv s) (todo : List HostAction) : Inv { s with inbox := todo } where
  memory := h.memory
  table := h.table
  err := h.err
  noOutput := h.noOutput
  run := h.run
  encodeCall hm := (h.encodeCall hm).of_unread s.mem.ibuf s.mem.opix s.opixCap todo
  decodeCall hm := (h.decodeCall hm).of_unread s.mem.ibuf s.mem.obuf s.mem.ipix s.obufCap todo

/-- While not BUSY the host may write any input register (R154). -/
theorem Inv.of_registers (h : Inv s) (hb : isBusy s = false) (w ht : Word32) (ch cs : Byte) (n : Nat) :
    Inv { s with width := w, height := ht, channels := ch, colorspace := cs, inLen := n } :=
  inv_of_not_busy (of_decide_eq_false hb) h.memory h.table h.err h.noOutput h.run

/-- Unless a decode call runs the host may write what no encode call uses (R154). -/
theorem Inv.of_unread_by_encode (h : Inv s) (hm : inCall .decode s = false) {ibuf : List Host.Cell}
    {opix : List (Nat × Pixel)} (hibuf : cellsRise ibuf) (hopix : cellsRise opix) (room : Nat) :
    Inv { s with mem := { s.mem with ibuf := ibuf, opix := opix }, opixCap := room } where
  memory :=
    let ⟨_, hipix, hobuf, _⟩ := h.memory
    ⟨hibuf, hipix, hobuf, hopix⟩
  table := h.table
  err := h.err
  noOutput := h.noOutput
  run := h.run
  encodeCall he := (h.encodeCall he).of_unread ibuf opix room s.inbox
  decodeCall hd := absurd (hm.symm.trans hd) Bool.false_ne_true

/-- Unless an encode call runs the host may write what no decode call uses (R154). -/
theorem Inv.of_unread_by_decode (h : Inv s) (hm : inCall .encode s = false) {obuf : List Host.Cell}
    {ipix : List (Nat × Pixel)} (hipix : cellsRise ipix) (hobuf : cellsRise obuf) (room : Nat) :
    Inv { s with mem := { s.mem with ipix := ipix, obuf := obuf }, obufCap := room } where
  memory :=
    let ⟨hibuf, _, _, hopix⟩ := h.memory
    ⟨hibuf, hipix, hobuf, hopix⟩
  table := h.table
  err := h.err
  noOutput := h.noOutput
  run := h.run
  encodeCall he := absurd (hm.symm.trans he) Bool.false_ne_true
  decodeCall hd := (h.decodeCall hd).of_unread s.mem.ibuf obuf ipix room s.inbox

theorem Inv.of_hostStep (h : Inv s) {a : HostAction} (hstep : hostStep a s = .next t) : Inv t := by
  obtain ⟨hibuf, hipix, hobuf, hopix⟩ := h.memory
  cases a with
  | pause => exact h.of_engineStep hstep
  | command c => exact h.of_acceptCommand hstep
  | hardwareReset =>
    cases hstep
    exact inv_resetRegisters h.memory
  | writeStatus v =>
    cases hstep
    exact h
  | writeWidth | writeHeight | writeChannels | writeColorspace | writeInLen =>
    obtain ⟨hb, rfl⟩ := hostWrite_eq_next_iff.mp hstep
    exact h.of_registers hb _ _ _ _ _
  | writeIbuf addr v =>
    obtain ⟨hm, rfl⟩ := hostWrite_eq_next_iff.mp hstep
    exact h.of_unread_by_encode hm (cellsRise_writeCell hibuf addr v) hopix _
  | provideOpix n =>
    obtain ⟨hm, rfl⟩ := hostWrite_eq_next_iff.mp hstep
    exact h.of_unread_by_encode hm hibuf cellsRise_nil _
  | writeOpix idx p =>
    obtain ⟨hm, rfl⟩ := hostWrite_eq_next_iff.mp hstep
    exact h.of_unread_by_encode hm hibuf (cellsRise_writeCell hopix idx p) _
  | writeIpix idx p =>
    obtain ⟨hm, rfl⟩ := hostWrite_eq_next_iff.mp hstep
    exact h.of_unread_by_decode hm (cellsRise_writeCell hipix idx p) hobuf _
  | provideObuf n =>
    obtain ⟨hm, rfl⟩ := hostWrite_eq_next_iff.mp hstep
    exact h.of_unread_by_decode hm hipix cellsRise_nil _
  | writeObuf addr v =>
    obtain ⟨hm, rfl⟩ := hostWrite_eq_next_iff.mp hstep
    exact h.of_unread_by_decode hm hipix (cellsRise_writeCell hobuf addr v) _

/-- Settles O45: no call runs after reset, and its memory and table are empty. -/
theorem invariantAtReset : Obligations.InvariantAtReset :=
  inv_of_not_busy (by decide) ⟨cellsRise_nil, cellsRise_nil, cellsRise_nil, cellsRise_nil⟩ tableDirectMapped_clearTable
    (by decide) (fun _ => rfl) (by decide)

/-- Settles O46: with the host idle the engine's step keeps the invariant; else the next host action does. -/
theorem stepKeepsInvariant : Obligations.StepKeepsInvariant := by
  intro s t h hstep
  cases hin : s.inbox with
  | nil => exact h.of_engineStep ((step_of_quiet hin).symm.trans hstep)
  | cons a rest => exact (h.with_inbox rest).of_hostStep ((step_of_action hin).symm.trans hstep)

end Sys2Proof.Machine
end

section
/-!
PROOF. The registers the host sees (spec/10_state.md R14 to R18, R32), what is known of the output buffers (U1, U4, U5), and the
events that start and end a call (R137, R141).
-/

namespace Sys2Proof.Machine

variable {s t : State}

/-! ### Commands, reset and STATUS -/

/-- Settles O24. -/
theorem commandAcceptance : Obligations.CommandAcceptance := by
  intro s c rest hin
  rw [step_of_action hin, hostStep]
  refine ⟨?_, fun hb hc => acceptCommand_of_busy hb hc, ?_, ?_⟩
  · rintro rfl
    rfl
  · rintro hb rfl
    exact acceptCommand_startEncode hb
  · rintro hb rfl
    exact acceptCommand_startDecode hb

/-- Settles O26: the reset column of R32, register by register. -/
theorem resetState : Obligations.ResetState :=
  ⟨rfl, by decide, rfl, rfl, rfl, rfl, rfl, rfl, rfl, rfl, rfl, getElem_clearTable⟩

/-- The fields of STATUS lie where R18 puts them. -/
theorem statusWord_fields (st : Status) :
    (statusWord st).extractLsb' 0 2 = stateNumber st.state ∧ (statusWord st).extractLsb' 2 1 = modeNumber st.mode ∧
      (statusWord st).extractLsb' 3 1 = 0 ∧ (statusWord st).extractLsb' 4 4 = errorNumber st.err := by
  have hfields : ∀ (e : BitVec 4) (m : BitVec 1) (n : BitVec 2),
      (e ++ 0b0#1 ++ m ++ n).extractLsb' 0 2 = n ∧ (e ++ 0b0#1 ++ m ++ n).extractLsb' 2 1 = m ∧
        (e ++ 0b0#1 ++ m ++ n).extractLsb' 3 1 = 0 ∧ (e ++ 0b0#1 ++ m ++ n).extractLsb' 4 4 = e := by decide
  exact hfields _ _ _

/-- Settles O27: the fields of the word, and that ERR is `none` unless ERROR by the invariant. -/
theorem statusRegister : Obligations.StatusRegister := by
  refine ⟨fun s => statusWord_fields s.status, by decide, fun s h hne => ?_, by decide, fun s v rest hin => ?_⟩
  · obtain ⟨-, -, -, herr⟩ := statusWord_fields s.status
    rw [hostReadStatus, herr, h.err.mpr hne, errorNumber]
  · rw [step_of_action hin, hostStep]

/-! ### The output buffers -/

/-- Until a call is DONE every host read of OBUF is a free value (U1, U4, U5). -/
theorem hostReadObuf_of_not_done (h : s.status.state ≠ .done) (a : Nat) :
    hostReadObuf s a = Config.freeObufByte s.epoch s.cur a := by
  simp [hostReadObuf, outputsReadable, h]

/-- Until a call is DONE every host read of OPIX is a free value (U1, U4, U5). -/
theorem hostReadOpix_of_not_done (h : s.status.state ≠ .done) (i : Nat) :
    hostReadOpix s i = Config.freeOpixPixel s.epoch s.cur i := by
  simp [hostReadOpix, outputsReadable, h]

theorem outputsUnspecified_of_not_done (h : s.status.state ≠ .done) (hobuf : s.mem.obuf = []) (hopix : s.mem.opix = []) :
    OutputsUnspecified s where
  bytes := hostReadObuf_of_not_done h
  pixels := hostReadOpix_of_not_done h
  noBytes a := by rw [hobuf, readCell_nil]
  noPixels i := by rw [hopix, readCell_nil]

theorem outputsUnspecified_raiseError (e : ErrorCode) (s : State) : OutputsUnspecified (raiseError e s) :=
  outputsUnspecified_of_not_done (by simp) (by simp) (by simp)

/-- Settles O30: none of these states is DONE, and the only cells known in any of them are the header's, below OUT_LEN. -/
theorem outputsForgotten : Obligations.OutputsForgotten := by
  refine ⟨outputsUnspecified_raiseError, fun s => ?_, fun s t h => ?_, fun s t h => ?_⟩
  · exact outputsUnspecified_of_not_done (by simp) rfl rfl
  · obtain ⟨e, -, rfl⟩ | ⟨hd, -, -, rfl⟩ := startDecode_cases h
    · exact outputsUnspecified_raiseError e _
    · exact outputsUnspecified_of_not_done (by simp) rfl rfl
  · obtain ⟨e, -, rfl⟩ | ⟨-, -, -, rfl⟩ := startEncode_cases h
    · obtain ⟨hbytes, hpixels, hnoBytes, hnoPixels⟩ := outputsUnspecified_raiseError e (acceptStart .encode s)
      exact ⟨fun a _ => hnoBytes a, hnoPixels, hbytes, hpixels⟩
    · exact ⟨fun a ha => readCell_writeCells_above _ ha, fun i => rfl, hostReadObuf_of_not_done (by simp),
        hostReadOpix_of_not_done (by simp)⟩

/-! ### The events -/

/-- STATUS before and after a step of the engine: MODE is kept, and STATE is kept or the call has ended. -/
structure EngineStatus (before after : Status) : Prop where
  mode : after.mode = before.mode
  state : after.state = before.state ∨ after.state = .done ∨ after.state = .error

theorem EngineStatus.refl (st : Status) : EngineStatus st st := ⟨rfl, .inl rfl⟩

theorem engineStatus_raiseError (e : ErrorCode) (s : State) : EngineStatus s.status (raiseError e s).status :=
  ⟨by simp, .inr (.inr (by simp))⟩

theorem engineStatus_of_encodeCallStep (h : encodeCallStep s = .next t) : EngineStatus s.status t.status := by
  unfold encodeCallStep at h
  split at h
  · obtain ⟨e, rfl⟩ | ⟨bs, r, ht, p, rfl⟩ := pixelStep_eq_next h
    · exact engineStatus_raiseError e s
    · exact EngineStatus.refl _
  · split at h
    · obtain ⟨e, rfl⟩ | ⟨bs, r, rfl⟩ := finishEncode_eq_next h
      · exact engineStatus_raiseError e s
      · exact ⟨rfl, .inr (.inl rfl)⟩
    · cases h
      exact EngineStatus.refl _

theorem engineStatus_of_exec {i : Instr} (h : exec i s = .next t) : EngineStatus s.status t.status := by
  obtain ⟨px, -, hx⟩ | ⟨n, -, -, hx⟩ | ⟨n, -, -, hx⟩ := exec_cases i s <;> cases hx.symm.trans h
  · exact EngineStatus.refl _
  · exact EngineStatus.refl _
  · exact engineStatus_raiseError _ s

theorem engineStatus_of_decodeCallStep (h : decodeCallStep s = .next t) : EngineStatus s.status t.status := by
  unfold decodeCallStep at h
  split at h
  · have hspec := recordStep_spec s
    split at hspec
    · obtain ⟨i, -, -, hexec⟩ := hspec
      exact engineStatus_of_exec (hexec.symm.trans h)
    · cases hspec.symm.trans h
      exact engineStatus_raiseError _ s
  · split at h
    · obtain rfl | rfl := finishDecode_cases h
      · exact engineStatus_raiseError _ s
      · exact ⟨rfl, .inr (.inl rfl)⟩
    · cases h
      exact EngineStatus.refl _

theorem engineStatus_of_engineStep (h : engineStep s = .next t) : EngineStatus s.status t.status := by
  unfold engineStep at h
  split at h
  · exact engineStatus_of_encodeCallStep h
  · exact engineStatus_of_decodeCallStep h
  all_goals
    cases h
    exact EngineStatus.refl _

/-- While no call runs the engine's step leaves STATUS alone (R146). -/
theorem status_of_engineStep_of_not_busy (h : engineStep s = .next t) (hb : s.status.state ≠ .busy) : t.status = s.status := by
  cases (engineStep_of_not_busy hb).symm.trans h
  rfl

/-- Which kind of event a step is, and what it may do to STATUS: the engine's own step, a reset, an accepted start command, or
an action that leaves STATUS alone (R14). -/
theorem step_event (h : step s = .next t) :
    ((s.inbox.head? = none ∨ s.inbox.head? = some .pause) ∧ EngineStatus s.status t.status ∧
      (s.status.state ≠ .busy → t.status = s.status)) ∨
    ((s.inbox.head? = some (.command .reset) ∨ s.inbox.head? = some .hardwareReset) ∧ t.status.state = .idle) ∨
    ((s.inbox.head? = some (.command .startEncode) ∨ s.inbox.head? = some (.command .startDecode)) ∧
      s.status.state ≠ .busy) ∨
    t.status = s.status := by
  cases hin : s.inbox with
  | nil =>
    rw [step_of_quiet hin] at h
    exact .inl ⟨.inl rfl, engineStatus_of_engineStep h, status_of_engineStep_of_not_busy h⟩
  | cons a rest =>
    rw [step_of_action hin] at h
    cases a with
    | pause =>
      exact .inl ⟨.inr rfl, engineStatus_of_engineStep (s := { s with inbox := rest }) h,
        status_of_engineStep_of_not_busy (s := { s with inbox := rest }) h⟩
    | command c =>
      obtain ⟨rfl, rfl⟩ | ⟨-, -, rfl⟩ | ⟨hb, rfl, -⟩ | ⟨hb, rfl, -⟩ := acceptCommand_cases h
      · exact .inr (.inl ⟨.inl rfl, rfl⟩)
      · exact .inr (.inr (.inr rfl))
      · exact .inr (.inr (.inl ⟨.inl rfl, hb⟩))
      · exact .inr (.inr (.inl ⟨.inr rfl, hb⟩))
    | hardwareReset =>
      cases h
      exact .inr (.inl ⟨.inr rfl, rfl⟩)
    | writeStatus v =>
      cases h
      exact .inr (.inr (.inr rfl))
    | writeWidth | writeHeight | writeChannels | writeColorspace | writeInLen | writeIbuf | writeIpix | provideObuf
    | provideOpix | writeObuf | writeOpix =>
      cases eq_of_hostWrite h
      exact .inr (.inr (.inr rfl))

/-- Settles O48: by the kind of event each step is. -/
theorem onlyTheseEventsChangeState : Obligations.OnlyTheseEventsChangeState := by
  intro s t h
  obtain ⟨hevent, ⟨hmode, hstate⟩, hkept⟩ | ⟨hreset, hidle⟩ | ⟨hstart, hb⟩ | hkept := step_event h
  · refine ⟨fun hb hbusy => ?_, fun hbusy hend => ?_, fun hm => absurd hmode hm⟩
    · rw [hkept hb] at hbusy
      exact absurd hbusy hb
    · exact .inl ⟨hevent, hstate.resolve_left fun heq => hend (heq.trans hbusy)⟩
  · refine ⟨fun _ hbusy => ?_, fun _ _ => .inr ⟨hreset, hidle⟩, fun _ => or_assoc.mp (.inl hreset)⟩
    cases hidle.symm.trans hbusy
  · exact ⟨fun _ _ => hstart, fun hbusy _ => absurd hbusy hb, fun _ => .inr (.inr ⟨hb, hstart⟩)⟩
  · rw [hkept]
    exact ⟨fun hb hbusy => absurd hbusy hb, fun hbusy hend => absurd hbusy hend, fun hm => absurd rfl hm⟩

end Sys2Proof.Machine
end

section
/-!
PROOF. The lock-step of a decoder with the encoder whose bytes it reads (spec/43_encoder.md R114). A pixel step of the encoder is
made of three moves: a pixel joins the run, the pending run's record goes out, a pixel's record goes out. Each keeps the
decoder in step, the first without a step of it and the other two by one record each.
-/

namespace Sys2Proof.Machine

open Claims (LockStep)

variable {e d : State}

/-- What the encoder has written from `n` on is what the decoder reads there. -/
theorem memRead_eq_of_held {m : List Host.Cell} {n : Nat} {bs : List Byte}
    (h : ∀ a, n ≤ a → a < n + bs.length → ∃ b, readCell (writeCells m n bs) a = some b ∧ readIbuf d a = b) :
    memRead d n bs.length = bs := by
  apply List.ext_getElem?
  intro i
  rw [getElem?_memRead]
  split
  · next hi =>
    obtain ⟨b, hb, hread⟩ := h (n + i) (by omega) (by omega)
    rw [hread, ← hb, holdsAt_writeCells m n bs i hi]
  · next hi => exact (List.getElem?_eq_none (by omega)).symm

/-- The bytes of a pixel step that flushes and records, as the decoder reads them: the run's, then the record's. -/
theorem memRead_of_held_recorded_flushed
    (h : ∀ a, e.outLen ≤ a → a < (recorded (flushed e)).outLen →
      ∃ b, readCell (recorded (flushed e)).mem.obuf a = some b ∧ readIbuf d a = b) :
    memRead d e.outLen (runBytes e.run).length = runBytes e.run ∧
      memRead d (flushed e).outLen (encode (ladder (flushed e) (pixRead e e.cur))).length =
        encode (ladder (flushed e) (pixRead e e.cur)) := by
  have hall := memRead_eq_of_held (d := d) (m := e.mem.obuf) (n := e.outLen)
    (bs := runBytes e.run ++ encode (ladder (flushed e) (pixRead e e.cur))) fun a hlo hhi => by
      rw [← writeCells_append]
      rw [List.length_append, ← Nat.add_assoc] at hhi
      exact h a hlo hhi
  rw [List.length_append, memRead_add] at hall
  exact List.append_inj hall (length_memRead _ _ _)

/-- A step after a run lengthens it by one. -/
theorem run_succ_of_run {k : Nat} {s t u : State} (h : Host.Core.run Sys2Proof.core k s = .next t) (hs : step t = .next u) :
    Host.Core.run Sys2Proof.core (k + 1) s = .next u := by
  induction k generalizing s with
  | zero =>
    cases h
    exact run_of_step hs
  | succ k ih =>
    cases hfirst : step s with
    | next v => exact (run_of_step hfirst).trans (ih ((run_of_step hfirst).symm.trans h))
    | fault r => cases r
    | refused r =>
      have hcore : Sys2Proof.core.step s = .refused r := hfirst
      simp only [Host.Core.run, hcore] at h
      cases h

/-- A decode call with pixels left executes the legal record at CUR (R119). -/
theorem step_of_memRead_eq_encode (hcall : inCall .decode d) (hquiet : d.inbox = []) (hleft : d.outLen < pixelCount d)
    {i : Instr} (hw : i.wellFormed) (hbytes : memRead d d.cur i.length = encode i) (hend : d.cur + i.length + 8 ≤ d.inLen) :
    step d = exec i d := by
  rw [step_of_quiet hquiet, engineStep_decode hcall, decodeCallStep, if_pos hleft,
    recordStep_of_memRead_eq_encode hw hbytes (by rw [streamEnd]; omega)]

/-- The decoder is short of the image by the pending run and the pixels not yet consumed (R114). -/
theorem outLen_add_run_le_of_lockStep (h : LockStep e d) (hcur : e.cur ≤ e.inLen) :
    d.outLen + e.run.toNat ≤ pixelCount d := by
  obtain ⟨hlen, hw, hh⟩ := h.room
  rw [h.produced, pixelCount, hw, hh, ← hlen]
  exact hcur

/-- A pixel that joins the run leaves the decoder in step. -/
theorem lockStep_absorbed (h : LockStep e d) (hrun : e.run.toNat ≤ 62) : LockStep (absorbed e) d where
  encoder := h.encoder
  decoder := h.decoder
  prev := h.prev
  table := h.table
  produced := by
    have hr : (absorbed e).run.toNat = e.run.toNat + 1 := toNat_run_add_one hrun
    rw [hr, ← Nat.add_assoc, h.produced]
    rfl
  pixels := h.pixels
  cursor := h.cursor
  room := h.room
  quiet := h.quiet

/-- The two states hold the same decode input: they read the same bytes and have the same IN_LEN. -/
structure SameInput (s t : State) : Prop where
  memRead : ∀ a n, memRead t a n = memRead s a n
  inLen : t.inLen = s.inLen

/-- The state of the decoder after the RUN record of a pending run (R98). -/
def runExecuted (n : Nat) (d : State) : State := { pixWrite (List.replicate n d.prev) d with cur := d.cur + 1 }

theorem exec_run_of_fits {n : Nat} (h : d.outLen + n ≤ pixelCount d) : exec (.run n) d = .next (runExecuted n d) := by
  rw [exec, execRun, if_neg (Nat.not_lt.mpr h)]
  rfl

/-- The decoder that executes the RUN record of the encoder's pending run has produced that run too: its pixels equal PREV. -/
theorem lockStep_flushed_runExecuted (h : LockStep e d) (h0 : e.run ≠ 0)
    (hequal : ∀ j, j < e.cur → e.cur ≤ j + e.run.toNat → pixRead e j = e.prev) :
    LockStep (flushed e) (runExecuted e.run.toNat d) where
  encoder := h.encoder
  decoder := h.decoder
  prev := h.prev
  table := h.table
  produced := by
    show d.outLen + (List.replicate e.run.toNat d.prev).length + 0 = e.cur
    rw [List.length_replicate, Nat.add_zero, h.produced]
  pixels i hi := by
    have hi' : i < e.cur := by
      rw [← h.produced]
      simpa [runExecuted] using hi
    show readCell (writeCells d.mem.opix d.outLen (List.replicate e.run.toNat d.prev)) i = some (pixRead e i)
    by_cases hold : i < d.outLen
    · rw [readCell_writeCells_below _ hold, h.pixels i hold]
    · have hprod := h.produced
      rw [readCell_writeCells, List.length_replicate, if_pos (by omega), List.getElem?_replicate, if_pos (by omega), h.prev,
        hequal i hi' (by omega)]
  cursor := by
    show d.cur + 1 = e.outLen + (runBytes e.run).length
    rw [length_runBytes, if_neg h0, h.cursor]
  room := h.room
  quiet := h.quiet

/-- When the pending run's record goes out, the decoder comes back in step by executing it, if there is one. -/
theorem lockStep_flushed (h : LockStep e d) (hcur : e.cur ≤ e.inLen) (hrun : e.run.toNat ≤ 62)
    (hequal : ∀ j, j < e.cur → e.cur ≤ j + e.run.toNat → pixRead e j = e.prev)
    (hbytes : memRead d e.outLen (runBytes e.run).length = runBytes e.run)
    (hend : e.outLen + (runBytes e.run).length + 8 ≤ d.inLen) :
    ∃ k d', k ≤ 1 ∧ Host.Core.run Sys2Proof.core k d = .next d' ∧ LockStep (flushed e) d' ∧ SameInput d d' := by
  by_cases h0 : e.run = 0
  · have hsame : flushed e = e := by
      cases e
      simp_all [flushed, runBytes]
    exact ⟨0, d, Nat.zero_le 1, rfl, hsame.symm ▸ h, fun _ _ => rfl, rfl⟩
  · have hpos : e.run.toNat ≠ 0 := fun h' => h0 (BitVec.eq_of_toNat_eq h')
    have hfit := outLen_add_run_le_of_lockStep h hcur
    have hw : (Instr.run e.run.toNat).wellFormed := wellFormed_run_iff.mpr ⟨by omega, hrun⟩
    rw [runBytes, if_neg h0, length_encode, ← h.cursor] at hbytes hend
    have hstep := step_of_memRead_eq_encode h.decoder h.quiet.2 (by omega) hw hbytes hend
    exact ⟨1, _, Nat.le_refl 1, run_of_step (hstep.trans (exec_run_of_fits hfit)), lockStep_flushed_runExecuted h h0 hequal,
      memRead_congr rfl rfl, rfl⟩

/-- When a pixel's record goes out with no run pending, the decoder comes back in step by executing it. -/
theorem lockStep_recorded (h : LockStep e d) (hcur : e.cur < e.inLen) (h0 : e.run = 0)
    (hbytes : memRead d e.outLen (encode (ladder e (pixRead e e.cur))).length = encode (ladder e (pixRead e e.cur)))
    (hend : e.outLen + (encode (ladder e (pixRead e e.cur))).length + 8 ≤ d.inLen) :
    ∃ d', step d = .next d' ∧ LockStep (recorded e) d' := by
  have hproduced : d.outLen = e.cur := by simpa [h0] using h.produced
  have hleft : d.outLen < pixelCount d := by
    obtain ⟨hlen, hw, hh⟩ := h.room
    rwa [hproduced, pixelCount, hw, hh, ← hlen]
  rw [length_encode, ← h.cursor] at hbytes hend
  have hstep := step_of_memRead_eq_encode h.decoder h.quiet.2 hleft (ladder_wellFormed e _) hbytes hend
  refine ⟨_, hstep.trans (exec_ladder h.prev h.table _), ?_⟩
  exact
    { encoder := h.encoder
      decoder := h.decoder
      prev := rfl
      table := congrArg (tablePut · (pixRead e e.cur)) h.table
      produced := by
        show d.outLen + 1 + e.run.toNat = e.cur + 1
        simp [hproduced, h0]
      pixels := fun i hi => by
        show readCell (writeCell d.mem.opix d.outLen (pixRead e e.cur)) i = some (pixRead e i)
        rcases Nat.lt_or_eq_of_le (Nat.le_of_lt_succ hi) with hold | rfl
        · rw [readCell_writeCell_other _ _ (Nat.ne_of_lt hold), h.pixels i hold]
        · rw [readCell_writeCell_same, hproduced]
      cursor := by
        show d.cur + _ = e.outLen + _
        rw [h.cursor, length_encode]
      room := h.room
      quiet := h.quiet }

/-- Settles O53: by the three kinds of pixel step, each a sequence of the three moves. -/
theorem lockStepKept : Obligations.LockStepKept := by
  intro e e' d he _ h hcur hstep hheld hend
  have henc := he.encodeCall h.encoder
  have hrun := he.run
  rw [step_of_quiet h.quiet.1, engineStep_encode h.encoder, encodeCallStep, if_pos hcur] at hstep
  obtain ⟨hp, hlt, hs⟩ | ⟨hp, hfull, hs⟩ | ⟨-, hs⟩ := pixelStep_cases hrun <;> cases hs.symm.trans hstep
  · exact ⟨0, d, by omega, rfl, lockStep_absorbed h (by omega)⟩
  · obtain ⟨k, d', hk, hd', h', -⟩ := lockStep_flushed (lockStep_absorbed h (by omega)) hcur
      ((toNat_run_add_one (by omega)).trans_le (by omega)) (henc.absorbed hp hcur (by omega)).pendingEqual
      (memRead_eq_of_held hheld) hend
    exact ⟨k, d', by omega, hd', h'⟩
  · obtain ⟨hflush, hrecord⟩ := memRead_of_held_recorded_flushed hheld
    have hend' : e.outLen + (runBytes e.run).length + (encode (ladder (flushed e) (pixRead e e.cur))).length + 8 ≤ d.inLen :=
      hend
    obtain ⟨k, d', hk, hd', h', hinput⟩ :=
      lockStep_flushed h hcur.le (by omega) henc.pendingEqual hflush (by omega)
    obtain ⟨d'', hs'', h''⟩ :=
      lockStep_recorded h' hcur rfl ((hinput.memRead _ _).trans hrecord) (hinput.inLen.symm ▸ hend')
    exact ⟨k + 1, d'', by omega, run_succ_of_run hd' hs'', h''⟩

end Sys2Proof.Machine
end

section
/-!
PROOF. The memory rules (spec/20_memory.md): what the records leave alone (R33, R49), the byte order of the pixel buffers (R40),
when the host reads the outputs (R46, R153), and the append-only output of an encode call (R35, R43).
-/

namespace Sys2Proof.Machine

variable {s t : State}

/-! ### The records -/

/-- Settles O7: producing a pixel and a RUN that fits write none of these; the error entry leaves BUSY. -/
theorem recordsWriteNoInput : Obligations.RecordsWriteNoInput := by
  intro i s t h
  obtain ⟨hparams, hibuf, hipix⟩ := keepsInputs_of_exec h
  refine ⟨hibuf, hipix, ?_⟩
  obtain ⟨px, -, hx⟩ | ⟨n, -, -, hx⟩ | ⟨n, -, -, hx⟩ := exec_cases i s <;> cases hx.symm.trans h
  · exact ⟨rfl, hparams, rfl, rfl, rfl, fun _ => ⟨rfl, rfl⟩⟩
  · exact ⟨rfl, hparams, rfl, rfl, rfl, fun _ => ⟨rfl, rfl⟩⟩
  · simp

/-! ### The byte order of a pixel -/

/-- Pixel i of OPIX, as the host reads it, lies at bytes 4i .. 4i+3 (R33, R40). -/
theorem hostReadOpixByte_of_pixel (s : State) (i c : Nat) (h : c < 4) :
    hostReadOpixByte s (4 * i + c) = pixelByte (hostReadOpix s i) c := by
  simp only [hostReadOpixByte, show (4 * i + c) / 4 = i by omega, show (4 * i + c) % 4 = c by omega]

/-- Four bytes that hold a pixel's bytes from 4i on are its channels in the order of R40. -/
theorem bytes_eq_channels {f : Nat → Byte} {i : Nat} {p : Pixel} (h : ∀ c, c < 4 → f (4 * i + c) = pixelByte p c) :
    [f (4 * i), f (4 * i + 1), f (4 * i + 2), f (4 * i + 3)] = [p.r, p.g, p.b, p.a] := by
  have hr : f (4 * i) = p.r := h 0 (by decide)
  have hg : f (4 * i + 1) = p.g := h 1 (by decide)
  have hb : f (4 * i + 2) = p.b := h 2 (by decide)
  have ha : f (4 * i + 3) = p.a := h 3 (by decide)
  rw [hr, hg, hb, ha]

/-- Outside an encode call the host's write of a pixel of IPIX takes effect, and the block reads that pixel (R150, R44). -/
theorem step_writeIpix {i : Nat} {p : Pixel} {rest : List HostAction} (hm : inCall .encode s = false)
    (hin : s.inbox = .writeIpix i p :: rest) : ∃ t, step s = .next t ∧ pixRead t i = p := by
  rw [step_of_action hin, hostStep]
  exact ⟨_, hostWrite_eq_next_iff.mpr ⟨hm, rfl⟩, pixRead_of_readCell (readCell_writeCell_same _ i p)⟩

/-- Settles O58: pixel i of either buffer lies at bytes 4i .. 4i+3, and the literals carry a pixel's bytes as they stand. -/
theorem pixelByteOrder : Obligations.PixelByteOrder := by
  refine ⟨fun s i b0 b1 b2 b3 rest hm hin => ?_, fun s i => ?_, fun p => ?_⟩
  · obtain ⟨t, hstep, hread⟩ := step_writeIpix hm hin
    refine ⟨t, hstep, hread, (bytes_eq_channels (ipixByte_of_pixel t i)).trans ?_⟩
    rw [hread, pixelOfBytes]
  · exact ⟨bytes_eq_channels (ipixByte_of_pixel s i), bytes_eq_channels (hostReadOpixByte_of_pixel s i)⟩
  · exact ⟨rfl, rfl, fun rest => decode_rgb _ _ _ rest kind_rgb, fun rest => decode_rgba _ _ _ _ rest kind_rgba⟩

/-! ### The host's reads of the outputs -/

/-- After an encode call that ended in DONE the host reads a byte below OUT_LEN as written (R153). -/
theorem hostReadObuf_of_done {a : Nat} {b : Byte} (hdone : s.status.state = .done) (hmode : s.status.mode = .encode)
    (ha : a < s.outLen) (hcell : readCell s.mem.obuf a = some b) : hostReadObuf s a = b := by
  simp [hostReadObuf, outputsReadable, hdone, hmode, ha, hcell]

/-- After a decode call that ended in DONE the host reads a pixel below OUT_LEN as written (R153). -/
theorem hostReadOpix_of_done {i : Nat} {p : Pixel} (hdone : s.status.state = .done) (hmode : s.status.mode = .decode)
    (hi : i < s.outLen) (hcell : readCell s.mem.opix i = some p) : hostReadOpix s i = p := by
  simp [hostReadOpix, outputsReadable, hdone, hmode, hi, hcell]

/-- In DONE the host reads the register OUT_LEN (R24). -/
theorem hostReadOutLen_of_done (hdone : s.status.state = .done) : hostReadOutLen s = s.outLen := by
  simp [hostReadOutLen, isBusy, hdone]

/-- Settles O34: until DONE both reads are free values, which are not applied to memory. -/
theorem noPartialOutput : Obligations.NoPartialOutput := by
  refine ⟨fun s a m hne => ⟨?_, ?_⟩, fun s a b hdone hmode ha hcell => ?_, fun s i p hdone hmode hi hcell => ?_⟩
  · exact (hostReadObuf_of_not_done (s := { s with mem := m }) hne a).trans (hostReadObuf_of_not_done hne a).symm
  · exact (hostReadOpix_of_not_done (s := { s with mem := m }) hne a).trans (hostReadOpix_of_not_done hne a).symm
  · exact ⟨hostReadObuf_of_done hdone hmode ha hcell, hostReadOutLen_of_done hdone⟩
  · exact ⟨hostReadOpix_of_done hdone hmode hi hcell, hostReadOutLen_of_done hdone⟩

/-! ### The output of an encode call -/

/-- The RUN record of a pending run has no more bytes than the run has pixels (R59, R103). -/
theorem length_runBytes_le_toNat (r : BitVec 6) : (runBytes r).length ≤ r.toNat := by
  rw [length_runBytes]
  split
  · exact Nat.zero_le _
  · next h0 => exact Nat.pos_of_ne_zero fun h => h0 (BitVec.eq_of_toNat_eq h)

/-- A pixel step emits at most a one-byte RUN record and a five-byte record, and writes RUN, HT, PREV and CUR besides (R43,
R101). -/
theorem pixelStep_emits (h : s.run.toNat ≤ 61) :
    ∃ bs r ht p, bs.length ≤ 6 ∧
      pixelStep s = .next { emit bs s with run := r, ht := ht, prev := p, cur := s.cur + 1 } := by
  by_cases hp : pixRead s s.cur = s.prev
  · rcases Nat.lt_or_eq_of_le h with hlt | hfull
    · exact ⟨[], s.run + 1, s.ht, s.prev, Nat.zero_le 6, pixelStep_absorb hp hlt⟩
    · exact ⟨[0xFD], 0, s.ht, s.prev, by decide, pixelStep_flush hp hfull⟩
  · refine ⟨_, _, _, _, ?_, pixelStep_emit hp (by omega)⟩
    have hrun : (runBytes s.run).length ≤ 1 := by
      rw [length_runBytes]
      split <;> decide
    have hrecord : (encode (ladder s (pixRead s s.cur))).length ≤ 5 := by
      rw [length_encode]
      exact (length_kind _).2
    rw [List.length_append]
    omega

/-- With the host idle a running encode call with a pixel left takes the pixel step (R101). -/
theorem step_eq_pixelStep (hcall : inCall .encode s) (hquiet : s.inbox = []) (hcur : s.cur < s.inLen) :
    step s = pixelStep s := by
  rw [step_of_quiet hquiet, engineStep_encode hcall, encodeCallStep, if_pos hcur]

/-- Settles O37: by the bytes a pixel step emits. -/
theorem pixelStepAtMostSixBytes : Obligations.PixelStepAtMostSixBytes := by
  intro s t hcall hquiet hcur hrun hstep
  obtain ⟨bs, r, ht, p, hlen, hs⟩ := pixelStep_emits hrun
  cases hs.symm.trans ((step_eq_pixelStep hcall hquiet hcur).symm.trans hstep)
  exact ⟨Nat.le_add_right _ _, Nat.add_le_add_left hlen _⟩

/-- The room left in OBUF takes the pending run, at five bytes a pixel, and the sentinel (R69, R150). -/
theorem EncodeCallInv.outLen_le_obufCap (h : EncodeCallInv s) : s.outLen + 5 * s.run.toNat + 8 ≤ s.obufCap := by
  have hmost := h.atMost
  have hcur := h.cur
  have hlen := h.inLen
  have hroom := h.room
  rw [obufRoomNeeded] at hroom
  omega

/-- A step of a running encode call appends bytes to OBUF, within its room (R35). -/
theorem Inv.encodeCallStep_emits (h : Inv s) (hcall : inCall .encode s) (hstep : encodeCallStep s = .next t) :
    ∃ bs, t.mem.obuf = (emit bs s).mem.obuf ∧ t.outLen = (emit bs s).outLen ∧ t.outLen ≤ s.obufCap := by
  have hrun := h.run
  have henc := h.encodeCall hcall
  rcases Nat.lt_or_eq_of_le henc.cur with hcur | hcur
  · rw [encodeCallStep, if_pos hcur] at hstep
    obtain ⟨bs, r, ht, p, -, hs⟩ := pixelStep_emits hrun
    have hnext : Inv t := h.of_pixelStep hcall hcur hstep
    cases hs.symm.trans hstep
    have hroom := (hnext.encodeCall hcall).outLen_le_obufCap
    exact ⟨bs, rfl, rfl, le_trans (by omega) hroom⟩
  · rw [encodeCallStep, if_neg (by omega), if_pos hcur] at hstep
    cases (finishEncode_spec (by omega)).symm.trans hstep
    refine ⟨_, rfl, rfl, ?_⟩
    have hroom := henc.outLen_le_obufCap
    have hbytes := length_runBytes_le_toNat s.run
    simp only [emit_outLen, List.length_append, Vector.length_toList]
    omega

/-- Settles O49: the bytes below OUT_LEN are known by the invariant, and an append at OUT_LEN leaves them alone. -/
theorem outputBytesStay : Obligations.OutputBytesStay := by
  intro s t h hcall hquiet hstep
  rw [step_of_quiet hquiet, engineStep_encode hcall] at hstep
  obtain ⟨bs, hobuf, hout, hroom⟩ := h.encodeCallStep_emits hcall hstep
  refine ⟨hout.symm ▸ Nat.le_add_right _ _, hroom, fun a ha => ?_⟩
  obtain ⟨b, hb⟩ := Option.isSome_iff_exists.mp (((h.encodeCall hcall).filled a).mpr ha)
  refine ⟨b, hb, ?_⟩
  rw [hobuf, emit_mem_obuf, readCell_writeCells_below _ ha, hb]

end Sys2Proof.Machine
end

section
/-!
PROOF. The encoding (spec/30_encoding.md): the kinds of byte 0 (R58 to R60), the round trips of a record through its bytes (R51 to
R57, R61, R62), what is rejected (R63, R65), and the bytes of a program (R70, R71).
-/

namespace Sys2Proof

/-- Settles O18: a legal record's first byte announces its kind, and its fields read back as its operands. -/
theorem decodeEncode : Obligations.DecodeEncode := fun _ rest hw => decode_encode_append hw rest

/-! ### A decoded record encodes back -/

/-- The 2-bit tag of a byte that announces a kind with a 2-bit tag (R58). -/
theorem bits_of_kind (b : Byte) :
    (kind b = .index → bits b 6 2 = 0b00#2) ∧ (kind b = .diff → bits b 6 2 = 0b01#2) ∧
      (kind b = .luma → bits b 6 2 = 0b10#2) ∧ (kind b = .run → bits b 6 2 = 0b11#2) := by
  revert b
  decide

/-- A full-byte tag is the only byte that announces its kind (R58). -/
theorem eq_of_kind (b : Byte) : (kind b = .rgb → b = 0xFE) ∧ (kind b = .rgba → b = 0xFF) := by
  revert b
  decide

theorem encode_indexOperand {b : Byte} (h : kind b = .index) : encode (.index (indexOperand b)) = [b] := by
  obtain ⟨htag, -, -, -⟩ := bits_of_kind b
  have hfield : BitVec.ofNat 6 (indexOperand b).val = bits b 0 6 := by simp [indexOperand]
  rw [encode, hfield, ← htag h, tag_append_bits]

theorem encode_diffOperands {b : Byte} (h : kind b = .diff) : encode (diffOperands b) = [b] := by
  obtain ⟨-, htag, -, -⟩ := bits_of_kind b
  simp only [diffOperands, encode, biasField_unbias]
  rw [← htag h, pairs_append_bits]

theorem encode_lumaOperands {b : Byte} (h : kind b = .luma) (b1 : Byte) : encode (lumaOperands b b1) = [b, b1] := by
  obtain ⟨-, -, htag, -⟩ := bits_of_kind b
  simp only [lumaOperands, encode, biasField_unbias]
  rw [← htag h, tag_append_bits, nibbles_append_bits]

theorem encode_runOperand {b : Byte} (h : kind b = .run) : encode (.run (runOperand b)) = [b] := by
  obtain ⟨-, -, -, htag⟩ := bits_of_kind b
  have hfield : BitVec.ofNat 6 (runOperand b - 1) = bits b 0 6 := by simp [runOperand]
  rw [encode, hfield, ← htag h, tag_append_bits]

/-- Whatever decodes to a record starts with the bytes of its encoding (R51). -/
theorem encode_append_of_decode {bs rest : List Byte} {i : Instr} (h : decode bs = .ok (i, rest)) :
    encode i ++ rest = bs := by
  unfold decode at h
  split at h
  · cases h
  · next b more =>
    obtain ⟨hrgb, hrgba⟩ := eq_of_kind b
    split at h
    case h_1 hk =>
      cases h
      rw [hrgb hk]
      rfl
    case h_2 hk =>
      cases h
      rw [hrgba hk]
      rfl
    case h_3 hk =>
      cases h
      rw [encode_indexOperand hk, List.singleton_append]
    case h_4 hk =>
      cases h
      rw [encode_diffOperands hk, List.singleton_append]
    case h_5 hk =>
      cases h
      rw [encode_lumaOperands hk]
      rfl
    case h_6 hk =>
      cases h
      rw [encode_runOperand hk, List.singleton_append]
    case h_7 => cases h

/-- Settles O19: the operands of each kind encode back to the bytes they were read from. -/
theorem encodeDecode : Obligations.EncodeDecode := fun _ _ _ => encode_append_of_decode

/-- Settles O20: a legal record is decoded from its own encoding. -/
theorem decodedIsLegal : Obligations.DecodedIsLegal :=
  ⟨fun _ _ _ => wellFormed_of_decode, fun i hw => ⟨encode i ++ [], decode_encode_append hw []⟩⟩

/-! ### What is rejected -/

/-- What a byte list decodes to does not depend on the bytes after the record (R65). -/
theorem decode_append {bs rest : List Byte} {i : Instr} (h : decode bs = .ok (i, rest)) (more : List Byte) :
    decode (bs ++ more) = .ok (i, rest ++ more) := by
  rw [← encode_append_of_decode h, List.append_assoc]
  exact decode_encode_append (wellFormed_of_decode h) (rest ++ more)

/-- A byte list as long as its first byte announces decodes to a record of that length (R59, R63). -/
theorem decode_of_length_le {b : Byte} {more : List Byte} (h : (kind b).length ≤ (b :: more).length) :
    ∃ i, decode (b :: more) = .ok (i, (b :: more).drop (kind b).length) ∧ i.kind = kind b := by
  obtain ⟨n, hn⟩ := Nat.exists_eq_add_of_le' (Machine.length_kind (kind b)).1
  rw [hn, List.length_cons] at h
  obtain ⟨i, hdecode, hkind⟩ := Machine.decode_exact (b := b) (more := more.take n) (by rw [hn]; simp; omega)
  have hall := decode_append hdecode (more.drop n)
  rw [List.cons_append, List.take_append_drop] at hall
  exact ⟨i, by rw [hn]; exact hall, hkind⟩

/-- A byte list shorter than its first byte announces matches the pattern of no record (R63). -/
theorem decode_of_length_lt {b : Byte} {more : List Byte} (h : (b :: more).length < (kind b).length) :
    decode (b :: more) = .error (.truncated (kind b)) := by
  unfold decode
  dsimp only
  split
  case h_7 => rfl
  all_goals
    next hk =>
      simp only [hk, Kind.length, List.length_cons] at h
      omega

/-- Settles O21: by the length of the list against the one byte 0 announces. -/
theorem decodeRejectsOnlyShort : Obligations.DecodeRejectsOnlyShort := fun _ _ =>
  ⟨decode_of_length_le, decode_of_length_lt⟩

/-! ### Byte 0 and whole words -/

/-- Settles O16: the decoder computes each record from its word. -/
theorem wordsDecode : Obligations.WordsDecode := ⟨rfl, rfl, rfl, rfl, rfl, rfl, rfl⟩

/-- The 2-bit tag of a byte as a number (R58). -/
theorem toNat_bits_tag (b : Byte) : (bits b 6 2).toNat = b.toNat / 64 := by
  have hlt := b.isLt
  simp only [bits, BitVec.extractLsb'_toNat, Nat.shiftRight_eq_div_pow]
  omega

/-- The kind of a record by byte 0 as a number: the full-byte tags first, then the upper two bits (R58). -/
theorem kind_eq_ite_toNat (b : Byte) :
    kind b = if b.toNat = 0xFE then .rgb else if b.toNat = 0xFF then .rgba else if b.toNat / 64 = 0 then .index
      else if b.toNat / 64 = 1 then .diff else if b.toNat / 64 = 2 then .luma else .run := by
  simp only [kind, ← BitVec.toNat_inj, toNat_bits_tag]
  rfl

/-- Settles O17: each range of byte 0 decides the tests on it. -/
theorem firstByteMap : Obligations.FirstByteMap := by
  intro b
  rw [kind_eq_ite_toNat]
  refine ⟨fun h => ?_, fun h => ?_, fun h => ?_, fun h => ?_, fun h => ?_, fun h => ?_⟩
  · rw [if_neg (by omega), if_neg (by omega), if_pos (by omega)]
    exact ⟨rfl, rfl⟩
  · rw [if_neg (by omega), if_neg (by omega), if_neg (by omega), if_pos (by omega)]
    exact ⟨rfl, rfl⟩
  · rw [if_neg (by omega), if_neg (by omega), if_neg (by omega), if_neg (by omega), if_pos (by omega)]
    exact ⟨rfl, rfl⟩
  · rw [if_neg (by omega), if_neg (by omega), if_neg (by omega), if_neg (by omega), if_neg (by omega)]
    exact ⟨rfl, rfl⟩
  · rw [if_pos h]
    exact ⟨rfl, rfl⟩
  · rw [if_neg (by omega), if_pos h]
    exact ⟨rfl, rfl⟩

end Sys2Proof

namespace Sys2Proof.Machine

/-! ### The bytes of a program -/

/-- A constructor gives a legal record its bytes (R93 to R99). -/
theorem construct_of_wellFormed {i : Instr} (h : i.wellFormed) : construct i = .ok (encode i) := by
  cases i with
  | rgb r g b => rfl
  | rgba r g b a => rfl
  | index k => rw [construct, opINDEX, if_neg (by omega), Int.toNat_natCast, Fin.ofNat_val_eq_self]
  | diff dr dg db => exact if_pos h
  | luma dg drg dbg => exact if_pos h
  | run n =>
    obtain ⟨hlow, hhigh⟩ := wellFormed_run_iff.mp h
    exact opRUN_of_legal hlow hhigh

/-- A program whose lines all assemble gives their bytes in order (R71). -/
theorem assemble_cons {ps : Config.Params} {l : AsmLine} {rest : List AsmLine} {bs more : List Byte}
    (hline : assembleLine ps l = .ok bs) (hrest : assemble ps rest = .ok more) :
    assemble ps (l :: rest) = .ok (bs ++ more) := by
  simp only [assemble, hline, hrest]

/-- Legal records and the end mark assemble to the records' bytes and the sentinel (R71). -/
theorem assemble_records (ps : Config.Params) {is : List Instr} (h : ∀ i ∈ is, i.wellFormed) :
    assemble ps (is.map .record ++ [.endMark]) = .ok ((is.map encode).flatten ++ ps.sentinel.toList) := by
  induction is with
  | nil => exact (assemble_cons rfl rfl).trans (by rw [List.append_nil]; rfl)
  | cons i is ih =>
    obtain ⟨hi, his⟩ := List.forall_mem_cons.mp h
    rw [List.map_cons, List.map_cons, List.flatten_cons, List.append_assoc]
    exact assemble_cons (construct_of_wellFormed hi) (ih his)

/-- Settles O22: the header line, then the records and the end mark. -/
theorem programBytes : Obligations.ProgramBytes := by
  intro ps w h ch cs is his
  rw [List.append_assoc, List.append_assoc]
  exact assemble_cons rfl (assemble_records ps his)

end Sys2Proof.Machine
end

section
/-!
PROOF. The size bounds of a finished call (spec/30_encoding.md R69): a step that ends a call in DONE is its finish step, and there
the bounds of the running call hold with no pixel left.
-/

namespace Sys2Proof.Machine

variable {s t : State}

/-! ### The step that ends a call -/

/-- A pixel step leaves STATUS alone or raises an error (R101, R131). -/
theorem status_of_pixelStep (h : pixelStep s = .next t) : t.status = s.status ∨ t.status.state = .error := by
  obtain ⟨e, rfl⟩ | ⟨bs, r, ht, p, rfl⟩ := pixelStep_eq_next h
  · exact .inr (by simp)
  · exact .inl rfl

/-- A record leaves STATUS alone or raises an error (R93 to R98). -/
theorem status_of_exec {i : Instr} (h : exec i s = .next t) : t.status = s.status ∨ t.status.state = .error := by
  obtain ⟨px, -, hx⟩ | ⟨n, -, -, hx⟩ | ⟨n, -, -, hx⟩ := exec_cases i s <;> cases hx.symm.trans h
  · exact .inl rfl
  · exact .inl rfl
  · exact .inr (by simp)

/-- A record step leaves STATUS alone or raises an error (R119). -/
theorem status_of_recordStep (h : recordStep s = .next t) : t.status = s.status ∨ t.status.state = .error := by
  have hspec := recordStep_spec s
  split at hspec
  · obtain ⟨i, -, -, hexec⟩ := hspec
    exact status_of_exec (hexec.symm.trans h)
  · cases hspec.symm.trans h
    exact .inr (by simp)

/-- A step that leaves STATUS alone or raises an error does not end a running call in DONE. -/
theorem state_ne_done (hbusy : s.status.state = .busy) (h : t.status = s.status ∨ t.status.state = .error) :
    t.status.state ≠ .done := by
  rcases h with h | h
  · simp [h, hbusy]
  · simp [h]

/-- An encode call ends in DONE by its finish step, with every pixel consumed: the pending run's record and the sentinel go out
(R111). -/
theorem encodeCallStep_eq_done (hbusy : s.status.state = .busy) (hrun : s.run.toNat ≤ 62) (h : encodeCallStep s = .next t)
    (hdone : t.status.state = .done) :
    s.cur = s.inLen ∧
      t = { emit s.params.sentinel.toList (flushed s) with status := { s.status with state := .done } } := by
  unfold encodeCallStep at h
  split at h
  · exact absurd hdone (state_ne_done hbusy (status_of_pixelStep h))
  · split at h
    · next hcur =>
      cases (finishEncode_spec hrun).symm.trans h
      refine ⟨hcur, ?_⟩
      rw [← emit_emit]
      rfl
    · cases h
      cases hbusy.symm.trans hdone

/-- A decode call ends in DONE by its finish step, with every record executed and every pixel produced: only STATUS is written
(R124). -/
theorem decodeCallStep_eq_done (hbusy : s.status.state = .busy) (h : decodeCallStep s = .next t)
    (hdone : t.status.state = .done) :
    s.outLen = pixelCount s ∧ s.cur = streamEnd s ∧ t = { s with status := { s.status with state := .done } } := by
  unfold decodeCallStep at h
  split at h
  · exact absurd hdone (state_ne_done hbusy (status_of_recordStep h))
  · split at h
    · next hout =>
      unfold finishDecode at h
      split at h
      · cases h
        simp at hdone
      · next hcur =>
        cases h
        exact ⟨hout, not_not.mp hcur, rfl⟩
    · cases h
      cases hbusy.symm.trans hdone

/-! ### The bounds -/

/-- A legal image has a pixel (R19, R20). -/
theorem ImageLegal.pixelCount_pos (h : ImageLegal s) : 0 < pixelCount s :=
  Nat.mul_pos (Nat.pos_of_ne_zero fun h0 => h.width (BitVec.eq_of_toNat_eq h0))
    (Nat.pos_of_ne_zero fun h0 => h.height (BitVec.eq_of_toNat_eq h0))

/-- With every pixel consumed, the bytes of an encode call and the pixels bound each other once the pending run's record is out
(R69). -/
theorem EncodeCallInv.flushed_bounds (h : EncodeCallInv s) (hrun : s.run.toNat ≤ 62) (hcur : s.cur = s.inLen) :
    (Machine.flushed s).outLen ≤ 14 + 5 * pixelCount s ∧
      14 * 62 + pixelCount s ≤ 62 * (Machine.flushed s).outLen := by
  have hflushed := h.flushed hrun
  rw [← h.inLen, ← hcur]
  exact ⟨hflushed.atMost, hflushed.atLeast⟩

/-- With every pixel produced and the stream at its end, the bytes of a decode call are bounded by its pixels, of which it has at
least one (R69). -/
theorem DecodeCallInv.bounds (h : DecodeCallInv s) (hout : s.outLen = pixelCount s) (hcur : s.cur = streamEnd s) :
    s.inLen - 22 ≤ 5 * pixelCount s ∧ 23 ≤ s.inLen := by
  have hpos := h.image.pixelCount_pos
  have hmost := h.atMost
  have hleast := h.atLeast
  rw [streamEnd] at hcur
  omega

/-- Settles O50: MODE is kept by the finish step, so each bound is that of the call which was running. -/
theorem sizeBounds : Obligations.SizeBounds := by
  intro s t h hbusy hquiet hstep hdone n
  rw [step_of_quiet hquiet] at hstep
  have hrun := h.run
  cases hmode : s.status.mode with
  | encode =>
    have hcall := inCall_iff.mpr ⟨hbusy, hmode⟩
    rw [engineStep_encode hcall] at hstep
    obtain ⟨hcur, rfl⟩ := encodeCallStep_eq_done hbusy (by omega) hstep hdone
    obtain ⟨hmost, hleast⟩ := (h.encodeCall hcall).flushed_bounds (by omega) hcur
    refine ⟨fun _ => ?_, fun hdec => ?_⟩
    · show (flushed s).outLen + s.params.sentinel.toList.length ≤ 22 + 5 * pixelCount s ∧
        pixelCount s ≤ 62 * ((flushed s).outLen + s.params.sentinel.toList.length - 22)
      rw [Vector.length_toList]
      omega
    · cases hmode.symm.trans hdec
  | decode =>
    have hcall := inCall_iff.mpr ⟨hbusy, hmode⟩
    rw [engineStep_decode hcall] at hstep
    obtain ⟨hout, hcur, rfl⟩ := decodeCallStep_eq_done hbusy hstep hdone
    obtain ⟨hmost, hmin⟩ := (h.decodeCall hcall).bounds hout hcur
    refine ⟨fun henc => ?_, fun _ => ⟨hmost, hmin, hout⟩⟩
    cases hmode.symm.trans henc

end Sys2Proof.Machine
end

section
/-!
PROOF. The byte-stream marshaller (spec/40_marshaller.md): a 32-bit integer through its bytes (R72 to R74), joining and cutting byte
sequences (R75 to R77), and the header through its 14 bytes (R78, R79).
-/

namespace Sys2Proof.Machine

/-! ### 32-bit integers -/

/-- A pattern is its four bytes, most significant first. -/
theorem bytes_append_extractLsb' (w : Word32) :
    w.extractLsb' 24 8 ++ w.extractLsb' 16 8 ++ w.extractLsb' 8 8 ++ w.extractLsb' 0 8 = w := by
  rw [BitVec.extractLsb'_append_extractLsb'_eq_extractLsb' (show 24 = 16 + 8 from rfl),
    BitVec.extractLsb'_append_extractLsb'_eq_extractLsb' (show 16 = 8 + 8 from rfl),
    BitVec.extractLsb'_append_extractLsb'_eq_extractLsb' (show 8 = 0 + 8 from rfl)]
  exact BitVec.extractLsb'_eq_self

/-- The bytes of four bytes in a row. -/
theorem extractLsb'_append_bytes (b0 b1 b2 b3 : Byte) :
    (b0 ++ b1 ++ b2 ++ b3).extractLsb' 24 8 = b0 ∧ (b0 ++ b1 ++ b2 ++ b3).extractLsb' 16 8 = b1 ∧
      (b0 ++ b1 ++ b2 ++ b3).extractLsb' 8 8 = b2 ∧ (b0 ++ b1 ++ b2 ++ b3).extractLsb' 0 8 = b3 := by
  simp (disch := decide) only [BitVec.extractLsb'_append_eq_of_le, BitVec.extractLsb'_append_eq_right, Nat.reduceSub,
    BitVec.extractLsb'_eq_self, and_self]

theorem toInt32be_fromInt32be (v : Int) : toInt32be (fromInt32be v) = .ok (BitVec.ofInt 32 v) :=
  congrArg Except.ok (bytes_append_extractLsb' _)

/-- Packing sees only the pattern, so any integer of the pattern `{b0, b1, b2, b3}` packs to these bytes (R73). -/
theorem fromInt32be_of_ofInt_eq {v : Int} {b0 b1 b2 b3 : Byte} (h : BitVec.ofInt 32 v = b0 ++ b1 ++ b2 ++ b3) :
    fromInt32be v = [b0, b1, b2, b3] := by
  simp only [fromInt32be, h, List.cons.injEq, and_true]
  exact extractLsb'_append_bytes b0 b1 b2 b3

theorem ofInt_toNat (w : Word32) : BitVec.ofInt 32 w.toNat = w := by
  rw [BitVec.ofInt_natCast, BitVec.ofNat_toNat, BitVec.setWidth_eq]

/-- What unpacks is the four bytes of its pattern (R72). -/
theorem toInt32be_eq_ok {b : List Byte} {w : Word32} (h : toInt32be b = .ok w) :
    ∃ b0 b1 b2 b3, b = [b0, b1, b2, b3] ∧ w = b0 ++ b1 ++ b2 ++ b3 := by
  unfold toInt32be at h
  split at h
  · cases h
    exact ⟨_, _, _, _, rfl, rfl⟩
  · cases h

theorem length_of_toInt32be {b : List Byte} {w : Word32} (h : toInt32be b = .ok w) : b.length = 4 := by
  obtain ⟨b0, b1, b2, b3, rfl, -⟩ := toInt32be_eq_ok h
  rfl

/-- An integer with the pattern that a sequence unpacks to packs to that sequence (R74). -/
theorem fromInt32be_of_toInt32be {b : List Byte} {w : Word32} {v : Int} (h : toInt32be b = .ok w)
    (hv : BitVec.ofInt 32 v = w) : fromInt32be v = b := by
  obtain ⟨b0, b1, b2, b3, rfl, rfl⟩ := toInt32be_eq_ok h
  exact fromInt32be_of_ofInt_eq hv

/-- Appending shifts the upper part by the width of the lower. -/
theorem toNat_append_eq_add {m n : Nat} (x : BitVec m) (y : BitVec n) : (x ++ y).toNat = x.toNat * 2 ^ n + y.toNat := by
  rw [BitVec.toNat_append, ← Nat.shiftLeft_add_eq_or_of_lt y.isLt, Nat.shiftLeft_eq]

/-- Four bytes unpack to their big-endian value (R72). -/
theorem toInt32be_of_length_eq {b : List Byte} (h : b.length = 4) : ∃ w, toInt32be b = .ok w ∧ w.toNat =
    (b.getD 0 0).toNat * 2 ^ 24 + (b.getD 1 0).toNat * 2 ^ 16 + (b.getD 2 0).toNat * 2 ^ 8 + (b.getD 3 0).toNat := by
  obtain ⟨b0, b1, b2, b3, rfl⟩ := List.length_eq_four.mp h
  refine ⟨b0 ++ b1 ++ b2 ++ b3, rfl, ?_⟩
  simp only [toNat_append_eq_add, List.getD_cons_zero, List.getD_cons_succ]
  omega

theorem toInt32be_of_length_ne {b : List Byte} (h : b.length ≠ 4) : toInt32be b = .error .marshalArg := by
  unfold toInt32be
  split
  · exact absurd rfl h
  · rfl

/-- Settles O12: both readings of a pattern have that pattern. -/
theorem int32RoundTrip : Obligations.Int32RoundTrip :=
  ⟨toInt32be_fromInt32be,
    fun _ w h => ⟨fromInt32be_of_toInt32be h (ofInt_toNat w), fromInt32be_of_toInt32be h BitVec.ofInt_toInt,
      (BitVec.toInt_eq_msb_cond w).symm, rfl⟩,
    fun _ => toInt32be_of_length_eq, fun _ => toInt32be_of_length_ne⟩

/-! ### Joining and cutting byte sequences -/

theorem length_concat (parts : List (List Byte)) : (concat parts).length = (parts.map List.length).sum :=
  List.length_flatten

/-- A sub-range that lies in the input is copied (R76). -/
theorem extract_eq_ok {input : List Byte} {start length : Int} (hstart : 0 ≤ start) (hlength : 0 ≤ length)
    (hend : start + length ≤ input.length) :
    extract input start length = .ok ((input.drop start.toNat).take length.toNat) :=
  if_neg (by omega)

/-- A sub-range that does not lie in the input raises MARSHAL_ARG (R76). -/
theorem extract_eq_error {input : List Byte} {start length : Int}
    (h : start < 0 ∨ length < 0 ∨ start + length > input.length) : extract input start length = .error .marshalArg :=
  if_pos h

theorem extract_eq_ok_or_error (input : List Byte) (start length : Int) :
    (∃ out, extract input start length = .ok out) ∨ extract input start length = .error .marshalArg := by
  by_cases h : start < 0 ∨ length < 0 ∨ start + length > input.length
  · exact .inr (extract_eq_error h)
  · exact .inl ⟨_, if_neg h⟩

/-- What lies between `a` and `c` is taken back out. -/
theorem extract_append (a b c : List Byte) : extract (a ++ (b ++ c)) a.length b.length = .ok b := by
  rw [extract_eq_ok (by omega) (by omega) (by simp), Int.toNat_natCast, Int.toNat_natCast, List.drop_left, List.take_left]

/-- Settles O13: a copied sub-range by its length and its bytes. -/
theorem concatExtract : Obligations.ConcatExtract := by
  refine ⟨⟨rfl, fun _ _ => rfl⟩, length_concat, fun input start length hstart hlength hend => ?_,
    fun _ _ _ => extract_eq_error, fun a b c => ?_⟩
  · refine ⟨_, extract_eq_ok hstart hlength hend, ?_, fun i hi => ?_⟩
    · rw [List.length_take, List.length_drop]
      omega
    · rw [List.getElem?_take_of_lt (by omega), List.getElem?_drop]
  · simpa [concat] using extract_append a b c

/-! ### Chunks -/

/-- A chunk that is there comes before the chunks after it (R77). -/
theorem chunksFrom_cons_of_ok {input c : List Byte} {off n : Int} (sizes : List Int) (h : extract input off n = .ok c) :
    chunksFrom input off (n :: sizes) = (chunksFrom input (off + n) sizes).map (c :: ·) := by
  rw [chunksFrom, h]
  cases chunksFrom input (off + n) sizes <;> rfl

/-- A chunk that is not there raises its error (R77). -/
theorem chunksFrom_cons_of_error {input : List Byte} {off n : Int} {e : ErrorCode} (sizes : List Int)
    (h : extract input off n = .error e) : chunksFrom input off (n :: sizes) = .error e := by
  rw [chunksFrom, h]

/-- After `pre`, the sizes of the parts cut a concatenation into its parts. -/
theorem chunksFrom_append_concat (pre : List Byte) (parts : List (List Byte)) :
    chunksFrom (pre ++ concat parts) pre.length (parts.map fun c => (c.length : Int)) = .ok parts := by
  induction parts generalizing pre with
  | nil => rfl
  | cons c parts ih =>
    have hc : extract (pre ++ concat (c :: parts)) pre.length c.length = .ok c := extract_append pre c _
    have hrest := ih (pre ++ c)
    rw [List.append_assoc, List.length_append, Nat.cast_add] at hrest
    rw [List.map_cons, chunksFrom_cons_of_ok _ hc]
    exact congrArg (Except.map (c :: ·)) hrest

/-- Sizes that sum to the length give the chunks from the start on (R77). -/
theorem partition_of_sum_eq {input : List Byte} {sizes : List Int} (h : sizes.sum = input.length) :
    partition input sizes = chunksFrom input 0 sizes :=
  if_neg (not_not.mpr h)

/-- The sizes of the parts cut a concatenation into its parts (R77). -/
theorem partition_concat (parts : List (List Byte)) :
    partition (concat parts) (parts.map fun c => (c.length : Int)) = .ok parts := by
  have hsum : (parts.map fun c => (c.length : Int)).sum = (concat parts).length := by
    rw [length_concat, Nat.cast_list_sum, List.map_map]
    rfl
  exact (partition_of_sum_eq hsum).trans (chunksFrom_append_concat [] parts)

/-- A negative size raises MARSHAL_ARG, at its chunk or at an earlier one (R77). -/
theorem chunksFrom_of_neg {sizes : List Int} {n : Int} (hmem : n ∈ sizes) (hneg : n < 0) (input : List Byte) (off : Int) :
    chunksFrom input off sizes = .error .marshalArg := by
  induction sizes generalizing off with
  | nil => cases hmem
  | cons m sizes ih =>
    obtain ⟨c, hc⟩ | herror := extract_eq_ok_or_error input off m
    · obtain rfl | htail := List.mem_cons.mp hmem
      · cases hc.symm.trans (extract_eq_error (.inr (.inl hneg)))
      · rw [chunksFrom_cons_of_ok sizes hc, ih htail]
        rfl
    · exact chunksFrom_cons_of_error sizes herror

/-- Sizes that sum to the length cut a sequence into parts of those sizes (R77). -/
theorem exists_concat_eq {input : List Byte} {sizes : List Nat} (h : sizes.sum = input.length) :
    ∃ parts, concat parts = input ∧ parts.map List.length = sizes :=
  ⟨sizes.splitLengths input, List.flatten_splitLengths _ _ h.ge, List.map_splitLengths_length _ _ h.le⟩

/-- Settles O14: an input is a concatenation of parts of the sizes; else the sum is wrong or a size is negative. -/
theorem partitionChunks : Obligations.PartitionChunks := by
  refine fun input sizes => ⟨fun ⟨hsizes, hsum⟩ => ?_, fun hbad => ?_⟩
  · lift sizes to List Nat using hsizes
    rw [← Nat.cast_list_sum, Nat.cast_inj] at hsum
    obtain ⟨parts, rfl, rfl⟩ := exists_concat_eq hsum
    have hcast : parts.map (fun c => (c.length : Int)) = (parts.map List.length).map Nat.cast := List.map_map.symm
    exact ⟨parts, hcast ▸ partition_concat parts, rfl, hcast⟩
  · by_cases hsum : sizes.sum = input.length
    · obtain ⟨n, hmem, hneg⟩ : ∃ n ∈ sizes, n < 0 := by
        by_contra! hsizes
        exact hbad ⟨hsizes, hsum⟩
      rw [partition_of_sum_eq hsum]
      exact chunksFrom_of_neg hmem hneg input 0
    · exact if_pos hsum

/-! ### The header -/

/-- Five fields of the sizes of R66 unpack to their readings (R79). -/
theorem unpackHeader_concat {magic width height : List Byte} {w h : Word32} (ch cs : Byte) (hmagic : magic.length = 4)
    (hwidth : toInt32be width = .ok w) (hheight : toInt32be height = .ok h) :
    unpackHeader (concat [magic, width, height, [ch], [cs]]) = .ok ⟨magic, w, h, ch, cs⟩ := by
  have hparts := partition_concat [magic, width, height, [ch], [cs]]
  simp only [List.map_cons, hmagic, length_of_toInt32be hwidth, length_of_toInt32be hheight] at hparts
  have hfields : partition (concat [magic, width, height, [ch], [cs]]) [4, 4, 4, 1, 1] = _ := hparts
  simp only [unpackHeader, hfields, hwidth, hheight]

/-- Fourteen bytes are five fields of the sizes of R66. -/
theorem exists_header_fields {b : List Byte} (h : b.length = 14) : ∃ magic width height ch cs,
    b = concat [magic, width, height, [ch], [cs]] ∧ magic.length = 4 ∧ width.length = 4 ∧ height.length = 4 := by
  obtain ⟨parts, rfl, hsizes⟩ := exists_concat_eq (sizes := [4, 4, 4, 1, 1]) h.symm
  simp only [List.map_eq_cons_iff, List.map_eq_nil_iff, List.length_eq_one_iff] at hsizes
  obtain ⟨magic, _, rfl, hmagic, width, _, rfl, hwidth, height, _, rfl, hheight, _, _, rfl, ⟨ch, rfl⟩, _, _, rfl,
    ⟨cs, rfl⟩, rfl⟩ := hsizes
  exact ⟨magic, width, height, ch, cs, rfl, hmagic, hwidth, hheight⟩

/-- Settles O15: by the five fields of a header, the two integers by their round trips. -/
theorem headerRoundTrip : Obligations.HeaderRoundTrip := by
  refine ⟨fun b hb => ?_, fun magic w h ch cs => ⟨length_packHeader magic w h ch cs, ?_, ?_⟩⟩
  · obtain ⟨magic, width, height, ch, cs, rfl, hmagic, hwidth, hheight⟩ := exists_header_fields hb
    obtain ⟨w, hw, -⟩ := toInt32be_of_length_eq hwidth
    obtain ⟨h, hh, -⟩ := toInt32be_of_length_eq hheight
    refine ⟨_, unpackHeader_concat ch cs hmagic hw hh, hmagic, ?_⟩
    rw [packHeader, fromInt32be_of_toInt32be hw (ofInt_toNat w), fromInt32be_of_toInt32be hh (ofInt_toNat h)]
  · simp [packHeader, concat]
  · refine unpackHeader_concat ch cs magic.length_toList ?_ ?_
    · rw [toInt32be_fromInt32be, ofInt_toNat]
    · rw [toInt32be_fromInt32be, ofInt_toNat]

end Sys2Proof.Machine
end

section
/-!
The pixel history of O8 and O9: the hash modulo 64 under both readings of a channel, and what a lookup returns after
a store.
-/

namespace Sys2Proof.Machine

/-! ### The hash -/

/-- The two readings of a byte differ by 0 or 256, a multiple of the number of slots (R82). -/
theorem toNat_modEq_toInt (x : Byte) : (x.toNat : Int) ≡ x.toInt [ZMOD 64] := by
  have hbyte : (x.toNat : Int) ≡ x.toInt [ZMOD 256] := by
    rw [BitVec.toInt_eq_toNat_bmod]
    exact (Int.bmod_emod ..).symm
  exact hbyte.of_dvd (by decide)

/-- The hash with the channels read as signed (R82). -/
theorem pixelHash_signed (p : Pixel) :
    ((pixelHash p).val : Int) = (3 * p.r.toInt + 5 * p.g.toInt + 7 * p.b.toInt + 11 * p.a.toInt) % 64 := by
  have hsum : (hashSum p : Int) ≡ 3 * p.r.toInt + 5 * p.g.toInt + 7 * p.b.toInt + 11 * p.a.toInt [ZMOD 64] := by
    rw [hashSum]
    push_cast
    gcongr <;> exact toNat_modEq_toInt _
  exact (Int.natCast_emod ..).trans hsum

/-- Every slot is a hash: 35 is the inverse of 11 modulo 64 (R83). -/
theorem pixelHash_alpha (k : Slot) : pixelHash ⟨0, 0, 0, BitVec.ofNat 8 (35 * k)⟩ = k := by
  apply Fin.ext
  simp only [pixelHash, hashSum, BitVec.ofNat_eq_ofNat, BitVec.toNat_ofNat]
  omega

/-- Settles O8: signed channels keep the hash sum modulo 64, and `11 * 35` is 1 modulo 64. -/
theorem hashFormula : Obligations.HashFormula :=
  ⟨fun _ => rfl, pixelHash_signed, fun k => ⟨_, pixelHash_alpha k⟩⟩

/-! ### Lookup after a store -/

/-- A stored pixel is found in the slot of its hash (R86). -/
@[simp] theorem tableGet_tablePut_self (ht : Vector Pixel 64) (p : Pixel) : tableGet (tablePut ht p) (pixelHash p) = p :=
  (getElem_tablePut ht p _).trans (if_pos rfl)

/-- A store changes no slot but that of the pixel's hash (R85). -/
theorem tableGet_tablePut_of_ne {k : Slot} {p : Pixel} (h : k ≠ pixelHash p) (ht : Vector Pixel 64) :
    tableGet (tablePut ht p) k = tableGet ht k :=
  (getElem_tablePut ht p k).trans (if_neg h)

/-- Settles O9: a store of another hash leaves the stored pixel's slot as it was. -/
theorem historyFidelity : Obligations.HistoryFidelity := by
  refine fun ht p => ⟨tableGet_tablePut_self ht p, fun _ hk => tableGet_tablePut_of_ne hk ht, fun _ hq => ?_,
    tablePut_of_mem⟩
  rw [tableGet_tablePut_of_ne hq.symm, tableGet_tablePut_self]

end Sys2Proof.Machine
end

section
/-!
PROOF. The delta unit (spec/42_opcodes.md R88 to R92): its deltas are byte differences read as signed, its range checks, and
reconstruction as addition of bytes.
-/

namespace Sys2Proof.Machine

/-! ### The deltas and their range checks -/

/-- A channel's delta is the byte difference read as signed (R88). -/
theorem channelDelta_eq_toInt_sub (x y : Byte) : channelDelta x y = (x - y).toInt := by
  simp only [channelDelta, s8, u8, sub_eq_add_neg, BitVec.ofInt_add, BitVec.ofInt_neg, BitVec.ofInt_natCast,
    BitVec.ofNat_toNat, BitVec.setWidth_eq]

theorem sameA_delta_iff {p q : Pixel} : (delta p q).sameA ↔ p.a = q.a := decide_eq_true_iff

theorem within_iff {lo hi x : Int} : within lo hi x ↔ lo ≤ x ∧ x ≤ hi := by
  simp [within]

/-- The DIFF check on the byte differences (R89). -/
theorem diffOk_iff {p q : Pixel} : diffOk p q ↔ p.a = q.a ∧ (-2 ≤ (p.r - q.r).toInt ∧ (p.r - q.r).toInt ≤ 1) ∧
    (-2 ≤ (p.g - q.g).toInt ∧ (p.g - q.g).toInt ≤ 1) ∧ (-2 ≤ (p.b - q.b).toInt ∧ (p.b - q.b).toInt ≤ 1) := by
  simp only [diffOk, Bool.and_eq_true, within_iff, delta, channelDelta_eq_toInt_sub, decide_eq_true_eq,
    and_assoc]

/-- The LUMA check on the byte differences, its two differences exact (R90). -/
theorem lumaOk_iff {p q : Pixel} : lumaOk p q ↔ p.a = q.a ∧ (-32 ≤ (p.g - q.g).toInt ∧ (p.g - q.g).toInt ≤ 31) ∧
    (-8 ≤ (p.r - q.r).toInt - (p.g - q.g).toInt ∧ (p.r - q.r).toInt - (p.g - q.g).toInt ≤ 7) ∧
    (-8 ≤ (p.b - q.b).toInt - (p.g - q.g).toInt ∧ (p.b - q.b).toInt - (p.g - q.g).toInt ≤ 7) := by
  simp only [lumaOk, Bool.and_eq_true, within_iff, delta, channelDelta_eq_toInt_sub, decide_eq_true_eq,
    and_assoc]

/-- With a green delta in range the exact difference lies in -159 .. 159, so one that wraps lands outside -97 .. 97 and the
check finds the same either way (R90). -/
theorem toInt_sub_range_iff {x y : Byte} (hy : -32 ≤ y.toInt ∧ y.toInt ≤ 31) :
    (-8 ≤ (x - y).toInt ∧ (x - y).toInt ≤ 7) ↔ (-8 ≤ x.toInt - y.toInt ∧ x.toInt - y.toInt ≤ 7) := by
  have hlo : -128 ≤ x.toInt := BitVec.le_toInt x
  have hhi : x.toInt < 128 := BitVec.toInt_lt
  rw [BitVec.toInt_sub, Int.bmod_def]
  split <;> omega

/-- Settles O10: by the two checks, and that wrapping the LUMA differences again changes neither range. -/
theorem deltaChecks : Obligations.DeltaChecks := by
  refine fun p q => ⟨channelDelta_eq_toInt_sub .., channelDelta_eq_toInt_sub .., channelDelta_eq_toInt_sub ..,
    sameA_delta_iff, diffOk_iff, lumaOk_iff, lumaOk_iff.trans (and_congr_right fun _ => and_congr_right fun hg => ?_)⟩
  rw [toInt_sub_range_iff hg, toInt_sub_range_iff hg]

/-! ### Reconstruction -/

/-- A channel is moved by addition of bytes (R9, R91). -/
theorem u8_toNat_add (x : Byte) (d : Int) : u8 ((x.toNat : Int) + d) = x + BitVec.ofInt 8 d := by
  simp [u8, BitVec.ofInt_add]

/-- Reconstruction adds each delta to its channel modulo 256 and keeps alpha (R91). -/
theorem recon_eq (q : Pixel) (dr dg db : Int) : recon q dr dg db =
    ⟨q.r + BitVec.ofInt 8 dr, q.g + BitVec.ofInt 8 dg, q.b + BitVec.ofInt 8 db, q.a⟩ := by
  simp only [recon, u8_toNat_add]

/-- Settles O11: the DIFF and the LUMA pixel are reconstructions, LUMA's from differences that add up to the deltas again. -/
theorem reconUndoesDelta : Obligations.ReconUndoesDelta := by
  refine ⟨recon_eq, fun p q ha => ?_⟩
  have hrecon := recon_delta (sameA_delta_iff.mpr ha)
  refine ⟨hrecon, hrecon, ?_⟩
  rw [lumaPixel, add_sub_cancel, add_sub_cancel, hrecon]

end Sys2Proof.Machine
end

section
/-!
PROOF. The six records (spec/42_opcodes.md R93 to R99): the bytes their constructors give, what their execution writes, and that a
legal one completes.
-/

namespace Sys2Proof

/-! ### The bytes of the records -/

theorem wellFormed_diff_iff {dr dg db : Int} :
    (Instr.diff dr dg db).wellFormed ↔ -2 ≤ dr ∧ dr ≤ 1 ∧ -2 ≤ dg ∧ dg ≤ 1 ∧ -2 ≤ db ∧ db ≤ 1 := by
  simp [Instr.wellFormed, diffRange, and_assoc]

theorem wellFormed_luma_iff {dg drg dbg : Int} :
    (Instr.luma dg drg dbg).wellFormed ↔ -32 ≤ dg ∧ dg ≤ 31 ∧ -8 ≤ drg ∧ drg ≤ 7 ∧ -8 ≤ dbg ∧ dbg ≤ 7 := by
  simp [Instr.wellFormed, lumaGreenRange, lumaDiffRange, and_assoc]

/-- A field holds an operand of its range, biased, exactly (R61). -/
theorem toNat_biasField {w : Nat} {d bias : Int} (hlow : 0 ≤ d + bias) (hhigh : d + bias < 2 ^ w) :
    (biasField w d bias).toNat = (d + bias).toNat := by
  rw [biasField, BitVec.toNat_ofInt, Int.emod_eq_of_lt hlow (by exact_mod_cast hhigh)]

/-- The byte of an INDEX record: the tag 00 and the slot (R52). -/
theorem encode_index (k : Slot) : encode (.index k) = [BitVec.ofInt 8 k.val] := by
  revert k
  decide

/-- The byte of a DIFF record: the tag 01 and the three biased deltas (R53). -/
theorem encode_diff {dr dg db : Int} (h : -2 ≤ dr ∧ dr ≤ 1 ∧ -2 ≤ dg ∧ dg ≤ 1 ∧ -2 ≤ db ∧ db ≤ 1) :
    encode (.diff dr dg db) = [BitVec.ofInt 8 (0x40 + (dr + 2) * 16 + (dg + 2) * 4 + (db + 2))] := by
  refine congrArg (fun b => [b]) (BitVec.eq_of_toNat_eq ?_)
  rw [Machine.toNat_append_eq_add, Machine.toNat_append_eq_add, Machine.toNat_append_eq_add,
    toNat_biasField (by omega) (by omega), toNat_biasField (by omega) (by omega), toNat_biasField (by omega) (by omega),
    BitVec.toNat_ofInt, BitVec.toNat_ofNat]
  omega

/-- The bytes of a LUMA record: the tag 10 and the biased green delta, then the two biased differences (R54). -/
theorem encode_luma {dg drg dbg : Int} (h : -32 ≤ dg ∧ dg ≤ 31 ∧ -8 ≤ drg ∧ drg ≤ 7 ∧ -8 ≤ dbg ∧ dbg ≤ 7) :
    encode (.luma dg drg dbg) = [BitVec.ofInt 8 (0x80 + (dg + 32)), BitVec.ofInt 8 ((drg + 8) * 16 + (dbg + 8))] := by
  refine congrArg₂ (fun b0 b1 => [b0, b1]) (BitVec.eq_of_toNat_eq ?_) (BitVec.eq_of_toNat_eq ?_)
  · rw [Machine.toNat_append_eq_add, toNat_biasField (by omega) (by omega), BitVec.toNat_ofInt, BitVec.toNat_ofNat]
    omega
  · rw [Machine.toNat_append_eq_add, toNat_biasField (by omega) (by omega), toNat_biasField (by omega) (by omega),
      BitVec.toNat_ofInt]
    omega

/-- The byte of a RUN record: the tag 11 and the count less one (R55). -/
theorem encode_run {n : Nat} (hlow : 1 ≤ n) (hhigh : n ≤ 62) : encode (.run n) = [BitVec.ofInt 8 (0xC0 + (n - 1))] := by
  refine congrArg (fun b => [b]) (BitVec.eq_of_toNat_eq ?_)
  rw [Machine.toNat_append_eq_add, BitVec.toNat_ofNat, BitVec.toNat_ofNat, BitVec.toNat_ofInt]
  omega

end Sys2Proof

namespace Sys2Proof.Machine

variable {s t : State}

/-! ### The constructors -/

theorem opRGB_of_length_ne {payload : List Byte} (h : payload.length ≠ 3) : opRGB payload = .error .outOfRangePayload := by
  unfold opRGB
  split
  · exact absurd rfl h
  · rfl

theorem opRGBA_of_length_ne {payload : List Byte} (h : payload.length ≠ 4) :
    opRGBA payload = .error .outOfRangePayload := by
  unfold opRGBA
  split
  · exact absurd rfl h
  · rfl

/-- The constructor of INDEX takes every slot (R95). -/
theorem opINDEX_of_slot (k : Slot) : opINDEX k.val = .ok (encode (.index k)) := construct_of_wellFormed (i := .index k) rfl

/-- An illegal record has no bytes: the literals and INDEX are always legal, and the other three check their operands (R96 to
R99). -/
theorem construct_of_not_wellFormed {i : Instr} (h : ¬i.wellFormed) : construct i = .error .outOfRangePayload := by
  cases i with
  | rgb | rgba | index => exact absurd rfl h
  | diff dr dg db => exact if_neg h
  | luma dg drg dbg => exact if_neg h
  | run n =>
    rw [wellFormed_run_iff] at h
    exact if_pos (by omega)

/-- A step of a running encode call raises no error: its pixel step emits, and its finish step ends the call (R99). -/
theorem Inv.err_of_encodeCallStep (h : Inv s) (hcall : inCall .encode s) (hstep : encodeCallStep s = .next t) :
    t.status.err = .none := by
  have hrun := h.run
  have herr : s.status.err = .none := by rw [h.status_of_inCall hcall]
  unfold encodeCallStep at hstep
  split at hstep
  · obtain ⟨bs, r, ht, p, -, hs⟩ := pixelStep_emits hrun
    cases hs.symm.trans hstep
    exact herr
  · split at hstep
    · cases (finishEncode_spec (by omega)).symm.trans hstep
      exact herr
    · cases hstep
      exact herr

/-- Settles O23: the engine's step in an encode call is the encoder's. -/
theorem constructorsNeverClamp : Obligations.ConstructorsNeverClamp := by
  refine ⟨fun _ => construct_of_wellFormed, fun _ => construct_of_not_wellFormed, fun s t h hcall hstep => ?_⟩
  rw [engineStep_encode hcall] at hstep
  exact h.err_of_encodeCallStep hcall hstep

/-! ### The records of one pixel -/

/-- Settles O1: a literal produces its payload with PREV's alpha. -/
theorem rgbRecord : Obligations.RgbRecord :=
  ⟨fun _ _ _ => rfl, fun _ => opRGB_of_length_ne, fun r g b s => ⟨_, rfl, producePixel_spec (rgbPixel s.prev r g b) 4 s⟩⟩

/-- Settles O2: a literal produces its payload. -/
theorem rgbaRecord : Obligations.RgbaRecord :=
  ⟨fun _ _ _ _ => rfl, fun _ => opRGBA_of_length_ne, fun r g b a s => ⟨_, rfl, producePixel_spec (rgbaPixel r g b a) 5 s⟩⟩

/-- Settles O3: the operands in range are the slots. -/
theorem indexRecord : Obligations.IndexRecord := by
  refine ⟨fun k hlow hhigh => ?_, fun k hk => if_pos hk, fun k s => ?_, hash_zeroPixel⟩
  · obtain ⟨n, rfl⟩ := Int.eq_ofNat_of_zero_le hlow
    have hn : n < 64 := by omega
    exact (opINDEX_of_slot ⟨n, hn⟩).trans (congrArg _ (encode_index ⟨n, hn⟩))
  · exact ⟨_, rfl, producePixel_spec (indexPixel s.ht k) 1 s⟩

/-- Settles O4: by reconstruction as addition modulo 256. -/
theorem diffRecord : Obligations.DiffRecord := by
  refine ⟨fun dr dg db h => ?_, fun dr dg db h => ?_, fun dr dg db s _ => ?_⟩
  · exact (construct_of_wellFormed (wellFormed_diff_iff.mpr h)).trans (congrArg _ (encode_diff h))
  · exact construct_of_not_wellFormed (mt wellFormed_diff_iff.mp h)
  · rw [← recon_eq]
    exact ⟨_, rfl, producePixel_spec (diffPixel s.prev dr dg db) 1 s⟩

/-- Settles O5: by reconstruction as addition modulo 256. -/
theorem lumaRecord : Obligations.LumaRecord := by
  refine ⟨fun dg drg dbg h => ?_, fun dg drg dbg h => ?_, fun dg drg dbg s _ => ?_⟩
  · exact (construct_of_wellFormed (wellFormed_luma_iff.mpr h)).trans (congrArg _ (encode_luma h))
  · exact construct_of_not_wellFormed (mt wellFormed_luma_iff.mp h)
  · rw [← recon_eq]
    exact ⟨_, rfl, producePixel_spec (lumaPixel s.prev dg drg dbg) 2 s⟩

/-! ### RUN and completion -/

/-- A run that fits puts PREV into each of its `n` pixels (R98). -/
theorem readCell_runExecuted {n j : Nat} (h : j < n) (s : State) :
    readCell (runExecuted n s).mem.opix (s.outLen + j) = some s.prev := by
  have hheld := holdsAt_writeCells s.mem.opix s.outLen (List.replicate n s.prev) j (by rwa [List.length_replicate])
  rwa [List.getElem?_replicate, if_pos h] at hheld

/-- A run that fits leaves every other pixel alone (R98). -/
theorem sameOutside_runExecuted (n : Nat) (s : State) : sameOutside s.mem.opix (runExecuted n s).mem.opix s.outLen n := by
  have hsame := sameOutside_writeCells s.mem.opix s.outLen (List.replicate n s.prev)
  rwa [List.length_replicate] at hsame

@[simp] theorem runExecuted_outLen (n : Nat) (s : State) : (runExecuted n s).outLen = s.outLen + n :=
  congrArg (s.outLen + ·) List.length_replicate

/-- A run past W*H pixels raises DIMENSION_MISMATCH (R123). -/
theorem exec_run_of_not_fits {n : Nat} (h : pixelCount s < s.outLen + n) :
    exec (.run n) s = .next (raiseError .dimensionMismatch s) := if_pos h

/-- Settles O6: the run fits, or it does not and the error entry leaves no pixel known. -/
theorem runRecord : Obligations.RunRecord := by
  refine ⟨fun n hlow hhigh => ?_, fun n hn => if_pos hn, fun n s _ hfit => ?_, fun n s _ hover => ?_⟩
  · obtain ⟨m, rfl⟩ := Int.eq_ofNat_of_zero_le (show 0 ≤ n by omega)
    exact (opRUN_of_legal (by omega) (by omega)).trans (congrArg _ (encode_run (by omega) (by omega)))
  · refine ⟨_, exec_run_of_fits hfit, fun j hj => readCell_runExecuted hj s, sameOutside_runExecuted n s, ?_⟩
    rw [← runExecuted_outLen]
    rfl
  · have hspec := raiseError_spec .dimensionMismatch s
    obtain ⟨-, hnoPixels⟩ := hspec.noOutput
    exact ⟨_, exec_run_of_not_fits hover, hspec, hnoPixels⟩

/-- `t` is `s` after a record of `len` bytes that produces `n` pixels, the last of which is PREV, in the same call (R119, R128). -/
def Completes (n len : Nat) (s t : State) : Prop :=
  t.status = s.status ∧ t.cur = s.cur + len ∧ t.outLen = s.outLen + n ∧
    readCell t.mem.opix (s.outLen + n - 1) = some t.prev ∧ sameOutside s.mem.opix t.mem.opix s.outLen n

theorem completes_producePixel (px : Pixel) (len : Nat) (s : State) : Completes 1 len s (producePixel px len s) :=
  have hspec := producePixel_spec px len s
  ⟨rfl, hspec.cur, hspec.outLen, hspec.written, hspec.otherPixels⟩

theorem completes_runExecuted {n : Nat} (h : 1 ≤ n) (s : State) : Completes n 1 s (runExecuted n s) :=
  ⟨rfl, rfl, runExecuted_outLen n s, (Nat.add_sub_assoc h s.outLen).symm ▸ readCell_runExecuted (Nat.sub_one_lt_of_lt h) s,
    sameOutside_runExecuted n s⟩

/-- Settles O57: RUN needs the room, and the other five produce one pixel in any state. -/
theorem everyRecordCompletes : Obligations.EveryRecordCompletes := by
  intro i s hw
  cases i with
  | run n =>
    obtain ⟨hpos, -⟩ := wellFormed_run_iff.mp hw
    exact fun hfit => ⟨_, exec_run_of_fits hfit, completes_runExecuted hpos s⟩
  | rgb | rgba | index | diff | luma => exact fun _ => ⟨_, rfl, completes_producePixel _ _ s⟩

end Sys2Proof.Machine
end

section
/-!
PROOF. The steps of an encode call (spec/43_encoder.md): the checks of its start and the header (R100), the pixel step with the
bytes of its record written out (R101 to R110), and the finish step (R111).
-/

namespace Sys2Proof.Machine

open Claims (flushBytes ladderBytes)

variable {s : State}

/-! ### The start step -/

theorem channelsLegal_iff {c : Byte} : channelsLegal c ↔ c = 3 ∨ c = 4 := by
  simp only [channelsLegal, Bool.or_eq_true, decide_eq_true_eq]

theorem colorspaceLegal_iff {c : Byte} : colorspaceLegal c ↔ c = 0 ∨ c = 1 := by
  simp only [colorspaceLegal, Bool.or_eq_true, decide_eq_true_eq]

/-- The image registers and IN_LEN pass the checks of START_ENCODE that raise INVALID_IMAGE (R100). -/
def EncodeImageValid (s : State) : Prop :=
  (s.channels = 3 ∨ s.channels = 4) ∧ (s.colorspace = 0 ∨ s.colorspace = 1) ∧ s.width ≠ 0 ∧ s.height ≠ 0 ∧
    s.inLen = pixelCount s

theorem encodeStartError_of_invalid (h : ¬EncodeImageValid s) : encodeStartError s = some .invalidImage := by
  unfold encodeStartError
  split
  · rfl
  · next hch =>
    split
    · rfl
    · next hcs =>
      split
      · rfl
      · next hzero =>
        split
        · rfl
        · next hlen =>
          rw [Bool.not_eq_true, Bool.not_eq_false'] at hch hcs
          rw [not_or] at hzero
          exact absurd ⟨channelsLegal_iff.mp hch, colorspaceLegal_iff.mp hcs, hzero.1, hzero.2, not_not.mp hlen⟩ h

/-- Of a valid image START_ENCODE checks the size alone (R100). -/
theorem encodeStartError_of_valid (h : EncodeImageValid s) :
    encodeStartError s = if pixelCount s > s.params.maxPixels then some .capacity else none := by
  obtain ⟨hch, hcs, hw, hh, hlen⟩ := h
  rw [encodeStartError, channelsLegal_iff.mpr hch, colorspaceLegal_iff.mpr hcs, if_neg (not_or.mpr ⟨hw, hh⟩),
    if_neg (not_not.mpr hlen)]
  rfl

/-- A START_ENCODE whose checks pass begins the call and writes the header (R100, R149). -/
def encodeBegun (s : State) : State :=
  emit (packHeader s.params.magic.toList s.width s.height s.channels s.colorspace) (beginCall 0 (acceptStart .encode s))

theorem encodeBegun_outLen (s : State) : (encodeBegun s).outLen = 14 :=
  (Nat.zero_add _).trans (length_packHeader _ _ _ _ _)

theorem startEncode_of_error {e : ErrorCode} (h : encodeStartError s = some e) :
    startEncode s = .next (raiseError e (acceptStart .encode s)) := by
  have h' : encodeStartError (acceptStart .encode s) = some e := h
  simp only [startEncode, h']

theorem startEncode_of_invalid (h : ¬EncodeImageValid s) :
    startEncode s = .next (raiseError .invalidImage (acceptStart .encode s)) :=
  startEncode_of_error (encodeStartError_of_invalid h)

theorem startEncode_of_large (h : EncodeImageValid s) (hlarge : s.params.maxPixels < pixelCount s) :
    startEncode s = .next (raiseError .capacity (acceptStart .encode s)) :=
  startEncode_of_error ((encodeStartError_of_valid h).trans (if_pos hlarge))

theorem startEncode_of_valid (h : EncodeImageValid s) (hsmall : pixelCount s ≤ s.params.maxPixels)
    (hroom : obufRoomNeeded s ≤ s.obufCap) : startEncode s = .next (encodeBegun s) := by
  have hpass : encodeStartError (acceptStart .encode s) = none :=
    (encodeStartError_of_valid h).trans (if_neg (Nat.not_lt.mpr hsmall))
  simp only [startEncode, hpass]
  exact if_neg (Nat.not_lt.mpr hroom)

/-- A start command that is accepted and then fails its checks enters the error of its own mode (R100, R117, R136). -/
theorem entersError_acceptStart (e : ErrorCode) (m : Mode) (s : State) :
    EntersError e m s (raiseError e (acceptStart m s)) where
  status := by simp
  outLen := by simp
  decodeImage h := by simp [h]
  encodeImage h := by simp [h]
  noOutput := by simp
  inputs := by simp
  kept := by simp
  rest := by simp

/-- The bytes of a header: MAGIC, the two integers, the two bytes (R66, R78). -/
theorem packHeader_eq_append (magic : List Byte) (w h : Word32) (ch cs : Byte) :
    packHeader magic w h ch cs = magic ++ fromInt32be w.toNat ++ fromInt32be h.toNat ++ [ch, cs] := by
  simp [packHeader, concat]

/-- While not BUSY a START_ENCODE is the start step (R17). -/
theorem step_startEncode {rest : List HostAction} (hin : s.inbox = .command .startEncode :: rest)
    (hb : s.status.state ≠ .busy) : step s = startEncode { s with inbox := rest } := by
  rw [step_of_action hin, hostStep]
  exact acceptCommand_startEncode hb

/-! ### The bytes of the records, written out -/

/-- The RUN record of a pending run, as R55 and R103 write it. -/
theorem flushBytes_eq_runBytes {r : BitVec 6} (h : r.toNat ≤ 62) : flushBytes r = runBytes r := by
  unfold flushBytes runBytes
  split
  · rfl
  · next h0 =>
    have hpos : 1 ≤ r.toNat := Nat.pos_of_ne_zero fun h' => h0 (BitVec.eq_of_toNat_eq h')
    rw [encode_run hpos h, ← BitVec.ofInt_natCast]
    congr 2
    omega

/-- The record the ladder chooses, as R52 to R57 write it: the checks are the same on the byte differences (R89, R90). -/
theorem ladderBytes_eq_encode_ladder (s : State) (p : Pixel) : ladderBytes s.ht s.prev p = encode (ladder s p) := by
  simp only [ladder, ladderBytes, tableGet, diffOk_iff, lumaOk_iff, delta, channelDelta_eq_toInt_sub, decide_eq_true_eq,
    and_assoc]
  split_ifs with hindex hdiff hluma
  · rw [encode_index, BitVec.ofInt_natCast]
  · exact (encode_diff hdiff.2).symm
  · exact (encode_luma hluma.2).symm
  · rfl
  · rfl

/-! ### The pixel step and the finish step -/

/-- The bytes a pixel step appends (R101). -/
def pixelStepBytes (s : State) : List Byte :=
  if pixRead s s.cur = s.prev then (if s.run.toNat = 61 then [0xFD] else [])
  else flushBytes s.run ++ ladderBytes s.ht s.prev (pixRead s s.cur)

/-- Bytes appended at OUT_LEN are held there and no other byte is written (R11, R35). -/
theorem emit_spec (bs : List Byte) (s : State) :
    (emit bs s).outLen = s.outLen + bs.length ∧ holdsAt (emit bs s).mem.obuf s.outLen bs ∧
      sameOutside s.mem.obuf (emit bs s).mem.obuf s.outLen bs.length :=
  ⟨rfl, holdsAt_writeCells _ _ _, sameOutside_writeCells _ _ _⟩

/-- `s` after pixel CUR is consumed: the bytes and every register the pixel step writes, in one form (R101 to R110). -/
def pixelConsumed (s : State) : State :=
  { emit (pixelStepBytes s) s with
    run := if pixRead s s.cur = s.prev ∧ s.run.toNat < 61 then s.run + 1 else 0
    ht := if pixRead s s.cur = s.prev then s.ht else tablePut s.ht (pixRead s s.cur)
    prev := pixRead s s.cur
    cur := s.cur + 1 }

theorem pixelStep_eq (h : s.run.toNat ≤ 61) : pixelStep s = .next (pixelConsumed s) := by
  unfold pixelConsumed pixelStepBytes
  by_cases hp : pixRead s s.cur = s.prev
  · rcases Nat.lt_or_eq_of_le h with hlt | hfull
    · rw [pixelStep_absorb hp hlt]
      simp [hp, hlt, Nat.ne_of_lt hlt]
    · rw [pixelStep_flush hp hfull]
      simp [hp, hfull]
  · rw [pixelStep_emit hp (by omega), storeAfter_ladder, flushBytes_eq_runBytes (by omega), ladderBytes_eq_encode_ladder]
    simp [hp]

/-- `s` after the finish step of an encode call: the pending run's record and the sentinel, as one append (R111). -/
def encodeFinished (s : State) : State :=
  { emit (runBytes s.run ++ s.params.sentinel.toList) s with run := 0, status := { s.status with state := .done } }

/-- With the host idle a running encode call with no pixel left takes the finish step (R111). -/
theorem step_eq_encodeFinished (hcall : inCall .encode s) (hquiet : s.inbox = []) (hcur : s.cur = s.inLen)
    (hrun : s.run.toNat ≤ 62) : step s = .next (encodeFinished s) := by
  rw [step_of_quiet hquiet, engineStep_encode hcall, encodeCallStep, if_neg (Nat.not_lt.mpr hcur.ge), if_pos hcur,
    finishEncode_spec hrun, encodeFinished]

end Sys2Proof.Machine

namespace Sys2Proof.Encoder

open Sys2Proof.Machine

/-- Settles O35: by the three outcomes of the start step. -/
theorem startEncode : Obligations.StartEncode := by
  intro s rest hin hb legal small
  rw [step_startEncode hin hb]
  refine ⟨fun hbad => ?_, fun ⟨hlegal, hlarge⟩ => ?_, fun ⟨hlegal, hsmall, hroom⟩ => ?_⟩
  · exact ⟨_, startEncode_of_invalid hbad, entersError_acceptStart _ _ _⟩
  · exact ⟨_, startEncode_of_large hlegal (Nat.lt_of_not_le hlarge), entersError_acceptStart _ _ _⟩
  · refine ⟨_, startEncode_of_valid hlegal hsmall hroom, rfl, rfl, rfl, rfl, getElem_clearTable, encodeBegun_outLen _, ?_, rfl,
      rfl, rfl, rfl, rfl, rfl, rfl, rfl, rfl⟩
    rw [← packHeader_eq_append]
    exact holdsAt_writeCells _ _ _

/-- Settles O36: the step's registers are read off its one form; the table slot by slot. -/
theorem pixelStep : Obligations.PixelStep := by
  intro s hcall hquiet hcur hrun p bytes
  obtain ⟨hout, hheld, hother⟩ := emit_spec bytes s
  refine ⟨_, (step_eq_pixelStep hcall hquiet hcur).trans (pixelStep_eq hrun), hout, hheld, hother, rfl, fun k => ?_, rfl, rfl,
    rfl⟩
  by_cases hp : p = s.prev
  · simp [pixelConsumed, p, hp]
  · simpa [pixelConsumed, p, hp] using getElem_tablePut s.ht p k

/-- Settles O38: what the finish step appends, with the pending run's record written out. -/
theorem finishEncode : Obligations.FinishEncode := by
  intro s hcall hquiet hcur hrun
  rw [flushBytes_eq_runBytes hrun]
  obtain ⟨hout, hheld, hother⟩ := emit_spec (runBytes s.run ++ s.params.sentinel.toList) s
  exact ⟨_, step_eq_encodeFinished hcall hquiet hcur hrun, rfl, rfl, hout, hheld, hother, rfl⟩

end Sys2Proof.Encoder
end

section
/-!
PROOF. Two encode calls on the same image, MAGIC and SENTINEL side by side (spec/43_encoder.md R116): they agree on all that an
encode call reads, so each step keeps them in agreement, whatever else the two states hold.
-/

namespace Sys2Proof.Machine

variable {s t : State}

/-- The two states show the host the same STATUS, OUT_LEN and output bytes. -/
structure SameOutputs (s t : State) : Prop where
  status : t.status = s.status
  outLen : t.outLen = s.outLen
  obuf : t.mem.obuf = s.mem.obuf

/-- The two states agree on all that a running encode call reads. -/
structure SameEncodeCall (s t : State) : Prop extends SameOutputs s t where
  inLen : t.inLen = s.inLen
  prev : t.prev = s.prev
  run : t.run = s.run
  cur : t.cur = s.cur
  ht : t.ht = s.ht
  sentinel : t.params.sentinel = s.params.sentinel
  pixels : ∀ i, i < s.inLen → pixRead t i = pixRead s i

/-- With the host idle two encode calls are still running in agreement, or both have ended with the same outputs. -/
inductive EncodeTwins (s t : State) : Prop where
  | running (quiet : s.inbox = [] ∧ t.inbox = []) (call : inCall .encode s) (run : s.run.toNat ≤ 61)
      (same : SameEncodeCall s t)
  | ended (quiet : s.inbox = [] ∧ t.inbox = []) (notBusy : s.status.state ≠ .busy) (same : SameOutputs s t)

theorem EncodeTwins.sameOutputs (h : EncodeTwins s t) : SameOutputs s t := by
  cases h with
  | running _ _ _ same => exact same.toSameOutputs
  | ended _ _ same => exact same

/-- A pixel step leaves RUN below a full run (R103). -/
theorem toNat_run_pixelConsumed_le (s : State) : (pixelConsumed s).run.toNat ≤ 61 := by
  show BitVec.toNat (if _ then _ else _) ≤ 61
  split
  · next h => exact (toNat_run_add_one (by omega)).trans_le h.2
  · exact Nat.zero_le _

/-- What a pixel step writes depends on what an encode call reads alone. -/
theorem SameEncodeCall.pixelConsumed (h : SameEncodeCall s t) (hcur : s.cur < s.inLen) :
    SameEncodeCall (pixelConsumed s) (pixelConsumed t) := by
  have hp : pixRead t t.cur = pixRead s s.cur := h.cur.symm ▸ h.pixels s.cur hcur
  have hbytes : pixelStepBytes t = pixelStepBytes s := by
    simp only [pixelStepBytes, hp, h.prev, h.run, h.ht]
  exact
    { status := h.status
      outLen := by simp only [Machine.pixelConsumed, emit_outLen, hbytes, h.outLen]
      obuf := by simp only [Machine.pixelConsumed, emit_mem_obuf, hbytes, h.outLen, h.obuf]
      inLen := h.inLen
      prev := hp
      run := by simp only [Machine.pixelConsumed, hp, h.prev, h.run]
      cur := congrArg (· + 1) h.cur
      ht := by simp only [Machine.pixelConsumed, hp, h.prev, h.ht]
      sentinel := h.sentinel
      pixels := h.pixels }

theorem SameEncodeCall.encodeFinished (h : SameEncodeCall s t) : SameOutputs (encodeFinished s) (encodeFinished t) where
  status := by simp only [Machine.encodeFinished, h.status]
  outLen := by simp only [Machine.encodeFinished, emit_outLen, h.outLen, h.run, h.sentinel]
  obuf := by simp only [Machine.encodeFinished, emit_mem_obuf, h.obuf, h.outLen, h.run, h.sentinel]

/-- A step of each keeps two encode calls in agreement. -/
theorem EncodeTwins.step (h : EncodeTwins s t) :
    ∃ s' t', step s = .next s' ∧ step t = .next t' ∧ EncodeTwins s' t' := by
  cases h with
  | ended quiet notBusy same =>
    refine ⟨s, t, ?_, ?_, .ended quiet notBusy same⟩
    · rw [step_of_quiet quiet.1, engineStep_of_not_busy notBusy]
    · rw [step_of_quiet quiet.2, engineStep_of_not_busy (same.status.symm ▸ notBusy)]
  | running quiet call run same =>
    have call' : inCall .encode t := by rwa [inCall, isBusy, same.status]
    have run' : t.run.toNat ≤ 61 := same.run.symm ▸ run
    rw [step_of_quiet quiet.1, step_of_quiet quiet.2, engineStep_encode call, engineStep_encode call', encodeCallStep,
      encodeCallStep, same.cur, same.inLen]
    rcases lt_trichotomy s.cur s.inLen with hlt | heq | hgt
    · rw [if_pos hlt, if_pos hlt, pixelStep_eq run, pixelStep_eq run']
      exact ⟨_, _, rfl, rfl, .running quiet call (toNat_run_pixelConsumed_le s) (same.pixelConsumed hlt)⟩
    · rw [if_neg heq.not_lt, if_neg heq.not_lt, if_pos heq, if_pos heq, finishEncode_spec (by omega),
        finishEncode_spec (by omega)]
      exact ⟨_, _, rfl, rfl, .ended quiet (by simp) same.encodeFinished⟩
    · rw [if_neg hgt.not_gt, if_neg hgt.not_gt, if_neg hgt.ne', if_neg hgt.ne']
      exact ⟨s, t, rfl, rfl, .running quiet call run same⟩

theorem EncodeTwins.run (h : EncodeTwins s t) (k : Nat) :
    ∃ s' t', Host.Core.run Sys2Proof.core k s = .next s' ∧ Host.Core.run Sys2Proof.core k t = .next t' ∧
      EncodeTwins s' t' := by
  induction k generalizing s t with
  | zero => exact ⟨s, t, rfl, rfl, h⟩
  | succ k ih =>
    obtain ⟨s₁, t₁, hs, ht, h₁⟩ := h.step
    rw [run_of_step hs, run_of_step ht]
    exact ih h₁

/-! ### The start -/

/-- The two states hold the same encode input, and OBUF room for it: the image registers, MAGIC and SENTINEL, and pixels the
host has written; MAX_PIXELS admits the image in both or in neither. -/
structure SameEncodeInput (s t : State) : Prop where
  width : t.width = s.width
  height : t.height = s.height
  channels : t.channels = s.channels
  colorspace : t.colorspace = s.colorspace
  inLen : t.inLen = s.inLen
  magic : t.params.magic = s.params.magic
  sentinel : t.params.sentinel = s.params.sentinel
  small : pixelCount s ≤ s.params.maxPixels ↔ pixelCount t ≤ t.params.maxPixels
  pixels : ∀ i, i < s.inLen → ∃ p, readCell s.mem.ipix i = some p ∧ readCell t.mem.ipix i = some p
  room : obufRoomNeeded s ≤ s.obufCap ∧ obufRoomNeeded t ≤ t.obufCap

theorem SameEncodeInput.encodeBegun (h : SameEncodeInput s t) : SameEncodeCall (encodeBegun s) (encodeBegun t) where
  status := rfl
  outLen := (encodeBegun_outLen t).trans (encodeBegun_outLen s).symm
  obuf := by
    simp only [Machine.encodeBegun, emit_mem_obuf, beginCall_outLen, beginCall_mem, acceptStart_mem_obuf, h.magic, h.width,
      h.height, h.channels, h.colorspace]
  inLen := h.inLen
  prev := rfl
  run := rfl
  cur := rfl
  ht := rfl
  sentinel := h.sentinel
  pixels i hi := by
    obtain ⟨p, hs, ht⟩ := h.pixels i hi
    exact (pixRead_of_readCell (s := Machine.encodeBegun t) ht).trans
      (pixRead_of_readCell (s := Machine.encodeBegun s) hs).symm

/-- A failed start leaves the same outputs. -/
theorem sameOutputs_raiseError (e : ErrorCode) (m : Mode) (s t : State) :
    SameOutputs (raiseError e (acceptStart m s)) (raiseError e (acceptStart m t)) :=
  ⟨by simp, by simp, by simp⟩

/-- Two start steps on the same input take the same one of the three ways of R100. -/
theorem SameEncodeInput.startEncode (h : SameEncodeInput s t) (hquiet : s.inbox = [] ∧ t.inbox = []) :
    ∃ s' t', startEncode s = .next s' ∧ startEncode t = .next t' ∧ EncodeTwins s' t' := by
  have hvalid : EncodeImageValid t ↔ EncodeImageValid s := by
    simp only [EncodeImageValid, pixelCount, h.width, h.height, h.channels, h.colorspace, h.inLen]
  by_cases hv : EncodeImageValid s
  · by_cases hsmall : pixelCount s ≤ s.params.maxPixels
    · exact ⟨_, _, startEncode_of_valid hv hsmall h.room.1,
        startEncode_of_valid (hvalid.mpr hv) (h.small.mp hsmall) h.room.2,
        .running hquiet rfl (Nat.zero_le _) h.encodeBegun⟩
    · have hlarge : ¬pixelCount t ≤ t.params.maxPixels := fun ht => hsmall (h.small.mpr ht)
      exact ⟨_, _, startEncode_of_large hv (Nat.lt_of_not_le hsmall),
        startEncode_of_large (hvalid.mpr hv) (Nat.lt_of_not_le hlarge),
        .ended (by simpa using hquiet) (by simp) (sameOutputs_raiseError _ _ _ _)⟩
  · exact ⟨_, _, startEncode_of_invalid hv, startEncode_of_invalid fun hv' => hv (hvalid.mp hv'),
      .ended (by simpa using hquiet) (by simp) (sameOutputs_raiseError _ _ _ _)⟩

/-- Settles O55: the start step sets the two calls side by side, and the steps after it keep them there. -/
theorem encodeDependsOnInputsOnly : Obligations.EncodeDependsOnInputsOnly := by
  intro s s' k hin hin' hb hb' hw hh hch hcs hlen hmagic hsentinel hsmall hpixels hroom hroom'
  have hinput : SameEncodeInput { s with inbox := [] } { s' with inbox := [] } :=
    { width := hw, height := hh, channels := hch, colorspace := hcs, inLen := hlen, magic := hmagic, sentinel := hsentinel
      small := by simpa only [pixelCount, hw, hh] using hsmall
      pixels := hpixels
      room := ⟨hroom, by simpa only [obufRoomNeeded, pixelCount, hw, hh] using hroom'⟩ }
  obtain ⟨t₁, t₁', hstart, hstart', h₁⟩ := hinput.startEncode ⟨rfl, rfl⟩
  obtain ⟨t, t', hrun, hrun', h⟩ := h₁.run k
  obtain ⟨hstatus, hout, hobuf⟩ := h.sameOutputs
  rw [run_of_step ((step_startEncode hin hb).trans hstart), run_of_step ((step_startEncode hin' hb').trans hstart')]
  exact ⟨t, t', hrun, hrun', hstatus, hout, hobuf⟩

end Sys2Proof.Machine
end

section
/-!
PROOF. The round trip of an image (spec/43_encoder.md R115): an encode call runs to DONE pixel by pixel, the decoder that reads
its bytes starts in step with it (R114), stays in step to the last pixel, and there ends in DONE itself.
-/

namespace Sys2Proof.Machine

open Claims (LockStep)

variable {s t e d : State}

/-! ### Runs -/

/-- A run of at least one step has a first step. -/
theorem step_of_run_succ {k : Nat} (h : Host.Core.run Sys2Proof.core (k + 1) s = .next t) :
    ∃ u, step s = .next u ∧ Host.Core.run Sys2Proof.core k u = .next t := by
  cases hfirst : step s with
  | next u => exact ⟨u, rfl, (run_of_step hfirst).symm.trans h⟩
  | fault r => cases r
  | refused r =>
    have hcore : Sys2Proof.core.step s = .refused r := hfirst
    simp only [Host.Core.run, hcore] at h
    cases h

/-- A run goes on from where a run has led. -/
theorem run_add_of_run {k : Nat} (h : Host.Core.run Sys2Proof.core k s = .next t) (l : Nat) :
    Host.Core.run Sys2Proof.core (k + l) s = Host.Core.run Sys2Proof.core l t := by
  induction k generalizing s with
  | zero =>
    cases h
    rw [Nat.zero_add]
  | succ k ih =>
    obtain ⟨u, hs, hu⟩ := step_of_run_succ h
    rw [Nat.add_right_comm, run_of_step hs, ih hu]

/-- With the host idle nothing happens while no call runs (R146). -/
theorem run_of_not_busy (hquiet : s.inbox = []) (hb : s.status.state ≠ .busy) (k : Nat) :
    Host.Core.run Sys2Proof.core k s = .next s := by
  induction k with
  | zero => rfl
  | succ k ih => exact (run_of_step ((step_of_quiet hquiet).trans (engineStep_of_not_busy hb))).trans ih

/-! ### The encode call, pixel by pixel -/

/-- The output of `t` is that of `s` with more bytes appended (R35). -/
structure ExtendsOutput (s t : State) : Prop where
  outLen : s.outLen ≤ t.outLen
  bytes : ∀ a, a < s.outLen → readCell t.mem.obuf a = readCell s.mem.obuf a

@[refl] theorem ExtendsOutput.refl (s : State) : ExtendsOutput s s := ⟨Nat.le_refl _, fun _ _ => rfl⟩

theorem ExtendsOutput.trans {u : State} (h : ExtendsOutput s t) (h' : ExtendsOutput t u) : ExtendsOutput s u :=
  ⟨h.outLen.trans h'.outLen, fun a ha => (h'.bytes a (ha.trans_le h.outLen)).trans (h.bytes a ha)⟩

theorem extendsOutput_emit (bs : List Byte) (s : State) : ExtendsOutput s (emit bs s) :=
  ⟨Nat.le_add_right _ _, fun _ ha => readCell_writeCells_below _ ha⟩

/-- An encode call is running with the host idle. -/
structure EncodeRunning (e : State) : Prop where
  inv : Inv e
  call : inCall .encode e
  quiet : e.inbox = []

/-- `t` is `s` with `m` more pixels consumed: the input is the same and the output has grown (R101, R110). -/
structure Consumes (m : Nat) (s t : State) : Prop where
  cur : t.cur = s.cur + m
  inLen : t.inLen = s.inLen
  inputs : KeepsInputs s t
  output : ExtendsOutput s t

theorem consumes_pixelConsumed (e : State) : Consumes 1 e (pixelConsumed e) :=
  let ⟨hout, hbytes⟩ := extendsOutput_emit (pixelStepBytes e) e
  ⟨rfl, rfl, ⟨rfl, rfl, rfl⟩, ⟨hout, hbytes⟩⟩

theorem consumes_iterate (m : Nat) (e : State) : Consumes m e (pixelConsumed^[m] e) := by
  induction m generalizing e with
  | zero => exact ⟨rfl, rfl, KeepsInputs.refl e, ExtendsOutput.refl e⟩
  | succ m ih =>
    obtain ⟨hcur, hlen, hinputs, houtput⟩ := consumes_pixelConsumed e
    obtain ⟨hcur', hlen', hinputs', houtput'⟩ := ih (pixelConsumed e)
    exact ⟨by rw [Function.iterate_succ_apply]; omega, hlen'.trans hlen, hinputs.trans hinputs', houtput.trans houtput'⟩

theorem EncodeRunning.step_pixelConsumed (h : EncodeRunning e) (hcur : e.cur < e.inLen) :
    step e = .next (pixelConsumed e) :=
  (step_eq_pixelStep h.call h.quiet hcur).trans (pixelStep_eq h.inv.run)

theorem EncodeRunning.pixelConsumed (h : EncodeRunning e) (hcur : e.cur < e.inLen) : EncodeRunning (pixelConsumed e) :=
  ⟨h.inv.of_pixelStep h.call hcur (pixelStep_eq h.inv.run), h.call, h.quiet⟩

/-- A running encode call consumes a pixel a step (R110). -/
theorem EncodeRunning.iterate {m : Nat} (h : EncodeRunning e) (hcur : e.cur + m ≤ e.inLen) :
    Host.Core.run Sys2Proof.core m e = .next (Machine.pixelConsumed^[m] e) ∧
      EncodeRunning (Machine.pixelConsumed^[m] e) := by
  induction m generalizing e with
  | zero => exact ⟨rfl, h⟩
  | succ m ih =>
    have hlt : e.cur < e.inLen := by omega
    have hnext : (Machine.pixelConsumed e).cur + m ≤ (Machine.pixelConsumed e).inLen := by
      show e.cur + 1 + m ≤ e.inLen
      omega
    rw [run_of_step (h.step_pixelConsumed hlt)]
    exact ih (h.pixelConsumed hlt) hnext

/-- The encode call of `s` with its last pixel consumed. -/
def allConsumed (s : State) : State := pixelConsumed^[pixelCount s] (encodeBegun s)

/-! ### What the decoder reads -/

/-- The input bytes of `d` hold every byte that `e` has written. -/
def Feeds (e d : State) : Prop :=
  ∀ a, a < e.outLen → ∃ b, readCell e.mem.obuf a = some b ∧ readCell d.mem.ibuf a = some b

theorem Feeds.of_extendsOutput (h : Feeds t d) (hext : ExtendsOutput s t) : Feeds s d := by
  intro a ha
  obtain ⟨b, hb, hd⟩ := h a (ha.trans_le hext.outLen)
  exact ⟨b, (hext.bytes a ha).symm.trans hb, hd⟩

theorem Feeds.of_ibuf_eq (h : Feeds e d) (hibuf : t.mem.ibuf = d.mem.ibuf) : Feeds e t := by
  rwa [Feeds, hibuf]

/-- The decoder reads what the encoder has just written. -/
theorem Feeds.memRead_emit {bs : List Byte} (h : Feeds (emit bs e) d) : memRead d e.outLen bs.length = bs := by
  refine memRead_eq_of_held (m := e.mem.obuf) fun a _ ha => ?_
  obtain ⟨b, hb, hd⟩ := h a ha
  exact ⟨b, hb, readIbuf_of_readCell hd⟩

theorem Feeds.memRead_emit_append {us vs : List Byte} (h : Feeds (emit (us ++ vs) e) d) :
    memRead d e.outLen us.length = us ∧ memRead d (e.outLen + us.length) vs.length = vs := by
  have hall := h.memRead_emit
  rw [List.length_append, memRead_add] at hall
  exact List.append_inj hall (length_memRead _ _ _)

/-! ### The decode call -/

/-- A decode call is running with the host idle. -/
structure DecodeRunning (d : State) : Prop where
  inv : Inv d
  call : inCall .decode d
  quiet : d.inbox = []

/-- `t` is a running decode call that has come `k` bytes or more beyond `s`, with the same input and image registers. -/
structure Advances (k : Nat) (s t : State) : Prop where
  running : DecodeRunning t
  cur : s.cur + k ≤ t.cur
  inLen : t.inLen = s.inLen
  ibuf : t.mem.ibuf = s.mem.ibuf
  image : t.width = s.width ∧ t.height = s.height ∧ t.channels = s.channels ∧ t.colorspace = s.colorspace

theorem Advances.trans {k l : Nat} {u : State} (h : Advances k s t) (h' : Advances l t u) : Advances (k + l) s u := by
  obtain ⟨-, hcur, hlen, hibuf, hw, hh, hch, hcs⟩ := h
  obtain ⟨hrunning', hcur', hlen', hibuf', hw', hh', hch', hcs'⟩ := h'
  exact ⟨hrunning', by omega, hlen'.trans hlen, hibuf'.trans hibuf, hw'.trans hw, hh'.trans hh, hch'.trans hch,
    hcs'.trans hcs⟩

/-- A step of a decode call executes a record, which has at least one byte, or ends the call (R119, R124, R128). -/
theorem DecodeRunning.step_cases (h : DecodeRunning d) (hstep : step d = .next t) :
    Advances 1 d t ∨ t.inbox = [] ∧ t.status.state ≠ .busy := by
  rw [step_of_quiet h.quiet, engineStep_decode h.call] at hstep
  have hinv : Inv t := h.inv.of_decodeCallStep h.call hstep
  have hquiet := h.quiet
  have hout := (h.inv.decodeCall h.call).outLen
  unfold decodeCallStep at hstep
  split at hstep
  · have hspec := recordStep_spec d
    split at hspec
    · obtain ⟨i, -, -, hexec⟩ := hspec
      have hlen := (length_kind i.kind).1
      rw [hexec] at hstep
      obtain ⟨px, -, hx⟩ | ⟨n, -, -, hx⟩ | ⟨n, -, -, hx⟩ := exec_cases i d <;> cases hx.symm.trans hstep
      · exact .inl ⟨⟨hinv, h.call, hquiet⟩, Nat.add_le_add_left hlen _, rfl, rfl, rfl, rfl, rfl, rfl⟩
      · exact .inl ⟨⟨hinv, h.call, hquiet⟩, Nat.le_refl _, rfl, rfl, rfl, rfl, rfl, rfl⟩
      · exact .inr (by simp [hquiet])
    · cases hspec.symm.trans hstep
      exact .inr (by simp [hquiet])
  · rw [if_pos (by omega)] at hstep
    obtain rfl | rfl := finishDecode_cases hstep
    · exact .inr (by simp [hquiet])
    · exact .inr (by simp [hquiet])

/-- A run that leaves a decode call running has come at least a byte a step. -/
theorem DecodeRunning.advances_of_run {k : Nat} (h : DecodeRunning d) (hrun : Host.Core.run Sys2Proof.core k d = .next t)
    (hbusy : t.status.state = .busy) : Advances k d t := by
  induction k generalizing d with
  | zero =>
    cases hrun
    exact ⟨h, Nat.le_refl _, rfl, rfl, rfl, rfl, rfl, rfl⟩
  | succ k ih =>
    obtain ⟨u, hstep, hrest⟩ := step_of_run_succ hrun
    obtain hfirst | ⟨hquiet, hended⟩ := h.step_cases hstep
    · rw [Nat.add_comm]
      exact hfirst.trans (ih hfirst.running hrest)
    · cases (run_of_not_busy hquiet hended k).symm.trans hrest
      exact absurd hbusy hended

/-! ### The start of the decode call -/

/-- A stream with a header of a legal image and the sentinel passes the checks of START_DECODE (R117). -/
theorem decodeStartHeader_eq_ok {w h : Word32} {ch cs : Byte} (hlen : 22 ≤ d.inLen)
    (hheader : memRead d 0 14 = packHeader d.params.magic.toList w h ch cs)
    (hsentinel : memRead d (d.inLen - 8) 8 = d.params.sentinel.toList) (hch : ch = 3 ∨ ch = 4) (hcs : cs = 0 ∨ cs = 1)
    (hw : w ≠ 0) (hh : h ≠ 0) (hsmall : w.toNat * h.toNat ≤ d.params.maxPixels) :
    decodeStartHeader d = .ok ⟨d.params.magic.toList, w, h, ch, cs⟩ := by
  obtain ⟨-, -, hunpack⟩ := headerRoundTrip.2 d.params.magic w h ch cs
  have hok : sentinelOk d := by simp [sentinelOk, hlen, hsentinel]
  have hzero : ¬(w = 0 ∨ h = 0) := not_or.mpr ⟨hw, hh⟩
  rw [decodeStartHeader, if_neg (by omega), hheader, hunpack]
  simp only [channelsLegal_iff.mpr hch, colorspaceLegal_iff.mpr hcs, hok, Bool.not_true, Bool.false_eq_true, if_false, ne_eq,
    not_true_eq_false, if_neg hzero, if_neg (Nat.not_lt.mpr hsmall)]

/-- A START_DECODE whose checks pass takes the header's fields and begins the call (R117, R118). -/
def decodeBegun (w h : Word32) (ch cs : Byte) (d : State) : State :=
  beginCall 14 { acceptStart .decode d with width := w, height := h, channels := ch, colorspace := cs }

theorem startDecode_of_header {hd : Header} (h : decodeStartHeader (acceptStart .decode d) = .ok hd)
    (hroom : hd.width.toNat * hd.height.toNat ≤ d.opixCap) :
    startDecode d = .next (decodeBegun hd.width hd.height hd.channels hd.colorspace d) := by
  have hcap : ¬(acceptStart .decode d).opixCap < opixRoomNeeded hd (acceptStart .decode d).inLen :=
    Nat.not_lt.mpr ((Nat.min_le_left _ _).trans hroom)
  simp only [startDecode, h, if_neg hcap]
  rfl

/-- While not BUSY a START_DECODE is the start step (R17). -/
theorem step_startDecode {rest : List HostAction} (hin : d.inbox = .command .startDecode :: rest)
    (hb : d.status.state ≠ .busy) : step d = startDecode { d with inbox := rest } := by
  rw [step_of_action hin, hostStep]
  exact acceptCommand_startDecode hb

/-! ### Both calls -/

/-- The image of `s` is one that a START_ENCODE accepts, with room in OBUF and the host idle after the command (R100, R150). -/
structure EncodeAccepted (s : State) : Prop where
  inv : Inv s
  quiet : s.inbox = []
  valid : EncodeImageValid s
  small : pixelCount s ≤ s.params.maxPixels
  room : obufRoomNeeded s ≤ s.obufCap

theorem EncodeAccepted.startEncode (h : EncodeAccepted s) : startEncode s = .next (encodeBegun s) :=
  startEncode_of_valid h.valid h.small h.room

theorem EncodeAccepted.encodeBegun (h : EncodeAccepted s) : EncodeRunning (encodeBegun s) :=
  ⟨h.inv.of_startEncode h.startEncode, rfl, h.quiet⟩

theorem EncodeAccepted.cur_add_pixelCount (h : EncodeAccepted s) :
    (Machine.encodeBegun s).cur + pixelCount s = (Machine.encodeBegun s).inLen := by
  obtain ⟨-, -, -, -, hlen⟩ := h.valid
  exact (Nat.zero_add _).trans hlen.symm

theorem EncodeAccepted.allConsumed (h : EncodeAccepted s) : EncodeRunning (allConsumed s) :=
  (h.encodeBegun.iterate h.cur_add_pixelCount.le).2

theorem allConsumed_cur (s : State) : (Machine.allConsumed s).cur = pixelCount s :=
  (consumes_iterate (pixelCount s) (Machine.encodeBegun s)).cur.trans (Nat.zero_add _)

theorem EncodeAccepted.cur_allConsumed (h : EncodeAccepted s) :
    (Machine.allConsumed s).cur = (Machine.allConsumed s).inLen := by
  obtain ⟨hcur, hlen, -, -⟩ := consumes_iterate (pixelCount s) (Machine.encodeBegun s)
  exact hcur.trans (h.cur_add_pixelCount.trans hlen.symm)

/-- An accepted encode call ends in DONE after a step for each pixel and the finish step (R101, R111). -/
theorem EncodeAccepted.run_encodeFinished (h : EncodeAccepted s) :
    Host.Core.run Sys2Proof.core (pixelCount s + 1) (Machine.encodeBegun s) =
      .next (encodeFinished (Machine.allConsumed s)) :=
  have hrunning := h.allConsumed
  run_succ_of_run (h.encodeBegun.iterate h.cur_add_pixelCount.le).1
    (step_eq_encodeFinished hrunning.call hrunning.quiet h.cur_allConsumed (hrunning.inv.run.trans (by decide)))

theorem encodeFinished_outLen (e : State) : (encodeFinished e).outLen = (flushed e).outLen + 8 := by
  simp [encodeFinished, flushed, Nat.add_assoc]

theorem extendsOutput_encodeFinished (e : State) : ExtendsOutput e (encodeFinished e) :=
  let ⟨hout, hbytes⟩ := extendsOutput_emit (runBytes e.run ++ e.params.sentinel.toList) e
  ⟨hout, hbytes⟩

/-- The bytes that the host reads after an encode call, loaded into IBUF, feed the decoder: all of them are known (R35,
R153). -/
theorem feeds_of_hostReadObuf (he : EncodeRunning e)
    (h : ∀ a, a < (encodeFinished e).outLen → readCell d.mem.ibuf a = some (hostReadObuf (encodeFinished e) a)) :
    Feeds (encodeFinished e) d := by
  intro a ha
  have hfilled : filledTo (encodeFinished e).mem.obuf (encodeFinished e).outLen :=
    filledTo_writeCells (he.inv.encodeCall he.call).filled _
  obtain ⟨b, hb⟩ := Option.isSome_iff_exists.mp ((hfilled a).mpr ha)
  obtain ⟨-, hmode⟩ := inCall_iff.mp he.call
  exact ⟨b, hb, (h a ha).trans (congrArg some (hostReadObuf_of_done rfl hmode ha hb))⟩

/-- `d` holds the stream of the encode call of `s` as its input, with room in OPIX for the image (R115, R150). -/
structure ReceivesStream (s d : State) : Prop where
  inv : Inv d
  quiet : d.inbox = []
  params : d.params = s.params
  inLen : d.inLen = (encodeFinished (allConsumed s)).outLen
  feeds : Feeds (encodeFinished (allConsumed s)) d
  room : pixelCount s ≤ d.opixCap

/-- The decoder finds the header at the start of the stream (R66, R100). -/
theorem memRead_header_of_feeds (h : Feeds (encodeFinished (allConsumed s)) d) :
    memRead d 0 14 = packHeader s.params.magic.toList s.width s.height s.channels s.colorspace := by
  obtain ⟨-, -, -, hpixels⟩ := consumes_iterate (pixelCount s) (encodeBegun s)
  have hbegun : Feeds (encodeBegun s) d := h.of_extendsOutput (hpixels.trans (extendsOutput_encodeFinished _))
  have hread := Feeds.memRead_emit hbegun
  rwa [length_packHeader] at hread

/-- After the last record the decoder finds the pending run's record and then the sentinel (R111). -/
theorem memRead_of_feeds_encodeFinished (h : Feeds (encodeFinished e) d) :
    memRead d e.outLen (runBytes e.run).length = runBytes e.run ∧
      memRead d (flushed e).outLen 8 = e.params.sentinel.toList := by
  obtain ⟨hrun, hsentinel⟩ := Feeds.memRead_emit_append (e := e) h
  rw [Vector.length_toList] at hsentinel
  exact ⟨hrun, hsentinel⟩

/-- The stream is at least the header and the sentinel (R69). -/
theorem le_outLen_flushed_allConsumed (s : State) : 14 ≤ (flushed (allConsumed s)).outLen := by
  obtain ⟨-, -, -, hpixels⟩ := consumes_iterate (pixelCount s) (encodeBegun s)
  have hflushed : (allConsumed s).outLen ≤ (flushed (allConsumed s)).outLen := Nat.le_add_right _ _
  exact (encodeBegun_outLen s).ge.trans (hpixels.outLen.trans hflushed)

/-- The start checks accept the stream, and the image registers take the fields of the image (R115, R117). -/
theorem ReceivesStream.startDecode (h : ReceivesStream s d) (hs : EncodeAccepted s) :
    startDecode d = .next (decodeBegun s.width s.height s.channels s.colorspace d) := by
  obtain ⟨hch, hcs, hw, hh, -⟩ := hs.valid
  obtain ⟨-, -, hinputs, -⟩ := consumes_iterate (pixelCount s) (encodeBegun s)
  have hhead := le_outLen_flushed_allConsumed s
  have hlen : (acceptStart .decode d).inLen = (flushed (allConsumed s)).outLen + 8 :=
    h.inLen.trans (encodeFinished_outLen _)
  have hparams : (acceptStart .decode d).params = s.params := h.params
  have hsentinel : (allConsumed s).params = s.params := hinputs.params
  have hfeeds : Feeds (encodeFinished (allConsumed s)) (acceptStart .decode d) := h.feeds
  refine startDecode_of_header (decodeStartHeader_eq_ok (by omega) ?_ ?_ hch hcs hw hh ?_) h.room
  · rw [memRead_header_of_feeds hfeeds, hparams]
  · rw [hlen, Nat.add_sub_cancel, (memRead_of_feeds_encodeFinished hfeeds).2, hparams, hsentinel]
  · rw [hparams]
    exact hs.small

theorem ReceivesStream.decodeBegun (h : ReceivesStream s d) (hs : EncodeAccepted s) :
    DecodeRunning (decodeBegun s.width s.height s.channels s.colorspace d) :=
  ⟨h.inv.of_startDecode (h.startDecode hs), rfl, h.quiet⟩

/-- The two calls start in step: nothing but the header is written or read (R114). -/
theorem ReceivesStream.lockStep (h : ReceivesStream s d) (hs : EncodeAccepted s) :
    LockStep (encodeBegun s) (Machine.decodeBegun s.width s.height s.channels s.colorspace d) where
  encoder := rfl
  decoder := rfl
  prev := rfl
  table := rfl
  produced := rfl
  pixels i hi := absurd hi (Nat.not_lt_zero i)
  cursor := (encodeBegun_outLen s).symm
  room :=
    let ⟨_, _, _, _, hlen⟩ := hs.valid
    ⟨hlen, rfl, rfl⟩
  quiet := ⟨hs.quiet, h.quiet⟩

/-- While the encoder consumes pixels a decoder fed with its bytes comes back in step with it after each (R114). -/
theorem exists_lockStep_iterate {m : Nat} (he : EncodeRunning e) (hd : DecodeRunning d) (h : LockStep e d)
    (hcur : e.cur + m ≤ e.inLen) (hfeeds : Feeds (pixelConsumed^[m] e) d)
    (hend : (pixelConsumed^[m] e).outLen + 8 ≤ d.inLen) :
    ∃ k d', Host.Core.run Sys2Proof.core k d = .next d' ∧ LockStep (pixelConsumed^[m] e) d' ∧ Advances k d d' := by
  induction m generalizing e d with
  | zero => exact ⟨0, d, rfl, h, hd.advances_of_run rfl (inCall_iff.mp h.decoder).1⟩
  | succ m ih =>
    have hlt : e.cur < e.inLen := by omega
    obtain ⟨-, -, -, hrest⟩ := consumes_iterate m (pixelConsumed e)
    have hfirst : Feeds (pixelConsumed e) d := hfeeds.of_extendsOutput hrest
    obtain ⟨k, d₁, -, hrun, h₁⟩ := lockStepKept e (pixelConsumed e) d he.inv hd.inv h hlt (he.step_pixelConsumed hlt)
      (fun a _ ha => (hfirst a ha).imp fun _ hb => ⟨hb.1, readIbuf_of_readCell hb.2⟩)
      ((Nat.add_le_add_right hrest.outLen 8).trans hend)
    have hadv := hd.advances_of_run hrun (inCall_iff.mp h₁.decoder).1
    have hcur' : (pixelConsumed e).cur + m ≤ (pixelConsumed e).inLen := by
      show e.cur + 1 + m ≤ e.inLen
      omega
    obtain ⟨l, d', hrun', h', hadv'⟩ := ih (he.pixelConsumed hlt) hadv.running h₁ hcur' (hfeeds.of_ibuf_eq hadv.ibuf)
      (hadv.inLen.symm ▸ hend)
    exact ⟨k + l, d', (run_add_of_run hrun l).trans hrun', h', hadv.trans hadv'⟩

/-- With every pixel consumed the decoder comes in step with the flushed encoder (R111, R114). -/
theorem exists_lockStep_flushed (he : EncodeRunning e) (hd : DecodeRunning d) (h : LockStep e d) (hcur : e.cur = e.inLen)
    (hfeeds : Feeds (encodeFinished e) d) (hlen : d.inLen = (flushed e).outLen + 8) :
    ∃ k d', Host.Core.run Sys2Proof.core k d = .next d' ∧ LockStep (flushed e) d' ∧ Advances k d d' := by
  have hrun := he.inv.run
  obtain ⟨k, d', -, hd', h', -⟩ := lockStep_flushed h hcur.le (by omega) (he.inv.encodeCall he.call).pendingEqual
    (memRead_of_feeds_encodeFinished hfeeds).1 hlen.ge
  exact ⟨k, d', hd', h', hd.advances_of_run hd' (inCall_iff.mp h'.decoder).1⟩

/-- `d` after the finish step of a decode call that ends in DONE (R124). -/
def decodeFinished (d : State) : State := { d with status := { d.status with state := .done } }

/-- A decoder in step with an encoder that has nothing left to emit but the sentinel ends in DONE (R124). -/
theorem step_decodeFinished (h : LockStep e d) (hrun : e.run = 0) (hcur : e.cur = e.inLen) (hlen : d.inLen = e.outLen + 8) :
    step d = .next (decodeFinished d) := by
  obtain ⟨hinLen, hw, hh⟩ := h.room
  have hout : d.outLen = pixelCount d := by
    rw [pixelCount, hw, hh, ← hinLen, ← hcur, ← h.produced, hrun]
    rfl
  have hend : d.cur = streamEnd d := by rw [streamEnd, hlen, Nat.add_sub_cancel, h.cursor]
  rw [step_of_quiet h.quiet.2, engineStep_decode h.decoder, decodeCallStep, if_neg (Nat.not_lt.mpr hout.ge), if_pos hout,
    finishDecode, if_neg (not_not.mpr hend)]
  rfl

/-- The decode call on the stream of an accepted encode call ends in DONE with the image of that call (R115). -/
theorem ReceivesStream.run_decodeFinished (h : ReceivesStream s d) (hs : EncodeAccepted s) :
    ∃ k d', Host.Core.run Sys2Proof.core (k + 1) (Machine.decodeBegun s.width s.height s.channels s.colorspace d) =
        .next (decodeFinished d') ∧
      LockStep (flushed (allConsumed s)) d' ∧
      Advances k (Machine.decodeBegun s.width s.height s.channels s.colorspace d) d' := by
  have hlen : d.inLen = (flushed (allConsumed s)).outLen + 8 := h.inLen.trans (encodeFinished_outLen _)
  have hroom : (allConsumed s).outLen + 8 ≤ d.inLen := (Nat.add_le_add_right (Nat.le_add_right _ _) 8).trans hlen.ge
  obtain ⟨k, d₁, hrun, h₁, hadv⟩ := exists_lockStep_iterate hs.encodeBegun (h.decodeBegun hs) (h.lockStep hs)
    hs.cur_add_pixelCount.le (h.feeds.of_extendsOutput (extendsOutput_encodeFinished _)) hroom
  obtain ⟨l, d₂, hrun', h₂, hadv'⟩ := exists_lockStep_flushed hs.allConsumed hadv.running h₁ hs.cur_allConsumed
    (h.feeds.of_ibuf_eq hadv.ibuf) (hadv.inLen.trans hlen)
  have hstep := step_decodeFinished h₂ rfl hs.cur_allConsumed (hadv'.inLen.trans (hadv.inLen.trans hlen))
  exact ⟨k + l, d₂, run_succ_of_run ((run_add_of_run hrun l).trans hrun') hstep, h₂, hadv.trans hadv'⟩

/-- A pixel that `s` holds is a pixel the encode call of `s` has read (R49). -/
theorem pixRead_flushed_allConsumed {i : Nat} {p : Pixel} (h : readCell s.mem.ipix i = some p) :
    pixRead (flushed (allConsumed s)) i = p := by
  obtain ⟨-, -, hinputs, -⟩ := consumes_iterate (pixelCount s) (encodeBegun s)
  have hipix : (flushed (allConsumed s)).mem.ipix = s.mem.ipix := hinputs.ipix
  exact pixRead_of_readCell (hipix.symm ▸ h)

/-- Settles O54: the encode call by its steps; the decode call by the lock-step with it, and at most a step a byte. -/
theorem roundTrip : Obligations.RoundTrip := by
  intro s d img n hinv hin hb hch hcs hw hh hlen hsmall hroom himg
  have hs : EncodeAccepted { s with inbox := [] } :=
    ⟨hinv.with_inbox [], rfl, ⟨hch, hcs, hw, hh, hlen⟩, hsmall, hroom⟩
  have hrunning := hs.allConsumed
  refine ⟨encodeFinished (allConsumed { s with inbox := [] }), ?_, ?_, fun hdinv hdin hdb hparams hdlen hbytes hdroom => ?_⟩
  · exact (run_of_step ((step_startEncode hin hb).trans hs.startEncode)).trans hs.run_encodeFinished
  · rw [encodeFinished, hrunning.inv.status_of_inCall hrunning.call]
  · have hd : ReceivesStream { s with inbox := [] } { d with inbox := [] } :=
      ⟨hdinv.with_inbox [], rfl, hparams, hdlen, feeds_of_hostReadObuf (d := { d with inbox := [] }) hrunning hbytes,
        hdroom⟩
    obtain ⟨k, d', hrun, hlock, hadv⟩ := hd.run_decodeFinished hs
    obtain ⟨hrunning', hcur, -, -, hw', hh', hch', hcs'⟩ := hadv
    have hstatus := hrunning'.inv.status_of_inCall hrunning'.call
    have hout : d'.outLen = n := hlock.produced.trans (allConsumed_cur _)
    refine ⟨k + 1 + 1, decodeFinished d', ?_, ?_, ?_, hw', hh', hch', hcs', hout, fun i hi => ?_⟩
    · have hbytes' : 14 + k ≤ d'.cur := hcur
      have hstream := hdlen.trans (encodeFinished_outLen _)
      rw [hlock.cursor] at hbytes'
      omega
    · exact (run_of_step ((step_startDecode hdin hdb).trans (hd.startDecode hs))).trans hrun
    · rw [decodeFinished, hstatus]
    · refine hostReadOpix_of_done rfl (congrArg Status.mode hstatus) (hout.symm ▸ hi) ?_
      exact (hlock.pixels i (hout.symm ▸ hi)).trans (congrArg some (pixRead_flushed_allConsumed (himg i hi)))

end Sys2Proof.Machine
end

section
/-!
PROOF. The steps of a decode call (spec/44_decoder.md): the checks of its start on the input bytes (R117), the record step and
the record at CUR (R119 to R122), and the finish step (R124).
-/

namespace Sys2Proof.Machine

variable {s : State} {f : Nat → Byte}

/-! ### What the decoder reads -/

/-- Bytes held in IBUF are what MemRead reads there (R11, R44). -/
theorem memRead_of_holdsAt {a : Nat} {bs : List Byte} (h : holdsAt s.mem.ibuf a bs) : memRead s a bs.length = bs := by
  apply List.ext_getElem?
  intro i
  rw [getElem?_memRead]
  split
  · next hi => rw [readIbuf_of_readCell ((h i hi).trans (List.getElem?_eq_getElem hi)), List.getElem?_eq_getElem hi]
  · next hi => exact (List.getElem?_eq_none (Nat.le_of_not_lt hi)).symm

/-- The input bytes of `s`, all IN_LEN of them, are those of `f`. -/
def InputIs (f : Nat → Byte) (s : State) : Prop := ∀ a, a < s.inLen → readIbuf s a = f a

/-- MemRead inside the input reads its bytes. -/
theorem InputIs.memRead (h : InputIs f s) {a n : Nat} (hend : a + n ≤ s.inLen) :
    memRead s a n = (List.range n).map fun i => f (a + i) := by
  apply List.ext_getElem?
  intro i
  rw [getElem?_memRead, List.getElem?_map]
  split
  · next hi => rw [h _ (by omega), List.getElem?_range hi, Option.map_some]
  · next hi => rw [List.getElem?_eq_none (by simpa using hi), Option.map_none]

/-! ### The start step -/

/-- The header in the first 14 of the bytes `f` (R66). -/
def headerOf (f : Nat → Byte) : Header :=
  ⟨[f 0, f 1, f 2, f 3], f 4 ++ f 5 ++ f 6 ++ f 7, f 8 ++ f 9 ++ f 10 ++ f 11, f 12, f 13⟩

/-- The first 14 input bytes unpack to the header in them (R79). -/
theorem InputIs.unpackHeader (h : InputIs f s) (hlen : 14 ≤ s.inLen) :
    unpackHeader (Machine.memRead s 0 14) = .ok (headerOf f) := by
  have hread : Machine.memRead s 0 14 = concat
      [[f 0, f 1, f 2, f 3], [f 4, f 5, f 6, f 7], [f 8, f 9, f 10, f 11], [f 12], [f 13]] := h.memRead hlen
  rw [hread]
  exact unpackHeader_concat (f 12) (f 13) rfl rfl rfl

/-- The input is long enough for a header and the header passes the checks that raise MALFORMED_HEADER (R117). -/
def DecodeHeaderValid (hd : Header) (s : State) : Prop :=
  14 ≤ s.inLen ∧ hd.magic = s.params.magic.toList ∧ (hd.channels = 3 ∨ hd.channels = 4) ∧
    (hd.colorspace = 0 ∨ hd.colorspace = 1) ∧ hd.width ≠ 0 ∧ hd.height ≠ 0

theorem InputIs.decodeStartHeader_of_invalid (hf : InputIs f s) (h : ¬DecodeHeaderValid (headerOf f) s) :
    decodeStartHeader s = .error .malformedHeader := by
  refine ite_eq_left_iff.mpr fun hlen => ?_
  rw [hf.unpackHeader (Nat.le_of_not_lt hlen)]
  refine ite_eq_left_iff.mpr fun hmagic => ite_eq_left_iff.mpr fun hch => ite_eq_left_iff.mpr fun hcs =>
    ite_eq_left_iff.mpr fun hzero => absurd ?_ h
  rw [Bool.not_eq_true, Bool.not_eq_false'] at hch hcs
  exact ⟨Nat.le_of_not_lt hlen, not_not.mp hmagic, channelsLegal_iff.mp hch, colorspaceLegal_iff.mp hcs, not_or.mp hzero⟩

/-- Once the header is valid START_DECODE checks the sentinel and then the size (R117, R134). -/
theorem InputIs.decodeStartHeader_of_valid (hf : InputIs f s) (h : DecodeHeaderValid (headerOf f) s) :
    decodeStartHeader s =
      if !sentinelOk s then .error .badSentinel
      else if (headerOf f).width.toNat * (headerOf f).height.toNat > s.params.maxPixels then .error .capacity
      else .ok (headerOf f) := by
  obtain ⟨hlen, hmagic, hch, hcs, hw, hh⟩ := h
  rw [decodeStartHeader, if_neg (Nat.not_lt.mpr hlen), hf.unpackHeader hlen]
  dsimp only
  rw [if_neg (not_not.mpr hmagic), channelsLegal_iff.mpr hch, colorspaceLegal_iff.mpr hcs, if_neg (not_or.mpr ⟨hw, hh⟩)]
  rfl

/-- The input ends in the sentinel (R80). -/
theorem InputIs.sentinelOk_iff (hf : InputIs f s) : sentinelOk s ↔
    22 ≤ s.inLen ∧ (List.range 8).map (fun i => f (s.inLen - 8 + i)) = s.params.sentinel.toList := by
  rw [sentinelOk, Bool.and_eq_true, decide_eq_true_eq, decide_eq_true_eq]
  refine and_congr_right fun hlen => ?_
  rw [hf.memRead (by omega)]

theorem startDecode_of_error {e : ErrorCode} (h : decodeStartHeader (acceptStart .decode s) = .error e) :
    startDecode s = .next (raiseError e (acceptStart .decode s)) := by
  simp only [startDecode, h]

/-- With the room of R150 a START_DECODE whose checks pass begins the call (R117, R118). -/
theorem startDecode_of_ok {hd : Header} (h : decodeStartHeader (acceptStart .decode s) = .ok hd)
    (hroom : opixRoomNeeded hd s.inLen ≤ s.opixCap) :
    startDecode s = .next (decodeBegun hd.width hd.height hd.channels hd.colorspace s) := by
  have hcap : ¬(acceptStart .decode s).opixCap < opixRoomNeeded hd (acceptStart .decode s).inLen := Nat.not_lt.mpr hroom
  simp only [startDecode, h, if_neg hcap]
  rfl

/-! ### The record step -/

/-- With the host idle a running decode call with pixels left takes the record step (R119). -/
theorem step_eq_recordStep (hcall : inCall .decode s) (hquiet : s.inbox = []) (hleft : s.outLen < pixelCount s) :
    step s = recordStep s := by
  rw [step_of_quiet hquiet, engineStep_decode hcall, decodeCallStep, if_pos hleft]

theorem recordStep_of_exhausted (h : streamEnd s ≤ s.cur) : recordStep s = .next (raiseError .truncatedStream s) := if_pos h

/-- A record that does not end before the sentinel is TRUNCATED_STREAM (R119). -/
theorem recordStep_of_truncated (h : streamEnd s < s.cur + (kind (readIbuf s s.cur)).length) :
    recordStep s = .next (raiseError .truncatedStream s) := by
  have hspec := recordStep_spec s
  rwa [if_neg (Nat.not_le.mpr h)] at hspec

/-- A record that ends before the sentinel is executed as what its bytes decode to (R119). -/
theorem recordStep_of_fits (h : s.cur + (kind (readIbuf s s.cur)).length ≤ streamEnd s) :
    ∃ i, decode (memRead s s.cur (kind (readIbuf s s.cur)).length) = .ok (i, []) ∧ i.kind = kind (readIbuf s s.cur) ∧
      recordStep s = exec i s := by
  have hspec := recordStep_spec s
  rwa [if_pos h] at hspec

/-- In a running call the error entry is that of the call's mode (R136). -/
theorem entersError_of_inCall {m : Mode} (hcall : inCall m s) (e : ErrorCode) : EntersError e m s (raiseError e s) := by
  obtain ⟨-, rfl⟩ := inCall_iff.mp hcall
  exact raiseError_spec e s

/-- The engine of a decode call with pixels left executes the legal record at CUR (R119, R120). -/
theorem engineStep_of_memRead_eq_encode (hcall : inCall .decode s) (hleft : s.outLen < pixelCount s) {i : Instr}
    (hw : i.wellFormed) (hbytes : memRead s s.cur i.length = encode i) (hend : s.cur + i.length + 8 ≤ s.inLen) :
    engineStep s = exec i s := by
  rw [engineStep_decode hcall, decodeCallStep, if_pos hleft,
    recordStep_of_memRead_eq_encode hw hbytes (by rw [streamEnd]; omega)]

/-- With the host idle a running decode call with every pixel produced takes the finish step (R124). -/
theorem step_eq_finishDecode (hcall : inCall .decode s) (hquiet : s.inbox = []) (hout : s.outLen = pixelCount s) :
    step s = finishDecode s := by
  rw [step_of_quiet hquiet, engineStep_decode hcall, decodeCallStep, if_neg (Nat.not_lt.mpr hout.ge), if_pos hout]

/-! ### A record put in place from outside -/

/-- A decode call that awaits a record at CUR, with the bytes `bs` there before the end of the stream and the host idle. -/
structure AwaitsBytes (bs : List Byte) (s : State) : Prop where
  call : inCall .decode s
  left : s.outLen < pixelCount s
  quiet : s.inbox = []
  bytes : memRead s s.cur bs.length = bs
  room : s.cur + bs.length + 8 ≤ s.inLen

/-- `placeRecord` sets this up in every state: a running call with pixels left is kept, else one of 64 pixels is begun. -/
theorem awaitsBytes_placeRecord (bs : List Byte) (s : State) : AwaitsBytes bs (placeRecord bs s) := by
  have hawaits : awaitsRecord (if awaitsRecord s then s else loadedCall s) := by
    split
    · assumption
    · rfl
  obtain ⟨hcall, hleft⟩ := Bool.and_eq_true_iff.mp hawaits
  exact
    { call := hcall
      left := of_decide_eq_true hleft
      quiet := rfl
      bytes := memRead_of_holdsAt (holdsAt_writeCells _ _ bs)
      room := Nat.le_max_right _ _ }

/-- What is executed of bytes at CUR is the record they decode to, whatever bytes follow it (R65, R119). -/
theorem AwaitsBytes.step {bs rest : List Byte} {i : Instr} (h : AwaitsBytes bs s) (hdecode : decode bs = .ok (i, rest)) :
    step s = exec i s := by
  have hbytes := h.bytes
  have hroom := h.room
  obtain rfl := encode_append_of_decode hdecode
  rw [List.length_append, memRead_add, length_encode] at hbytes
  rw [List.length_append, length_encode] at hroom
  obtain ⟨hrecord, -⟩ := List.append_inj hbytes (by rw [length_memRead, length_encode])
  exact step_of_memRead_eq_encode h.call h.quiet h.left (wellFormed_of_decode hdecode) hrecord (by omega)

/-- A word of the opcode table stands for the record its bytes decode to. -/
theorem decode_of_decodeTableWord {nbits w : Nat} {i : Instr} (h : decodeTableWord nbits w = some i) :
    ∃ rest, decode (tableBytes nbits w) = .ok (i, rest) := by
  unfold decodeTableWord at h
  split at h
  · next j rest hdecode =>
    cases h
    exact ⟨rest, hdecode⟩
  · cases h

end Sys2Proof.Machine

namespace Sys2Proof.Decoder

open Sys2Proof.Machine

/-- Settles O39: by the outcomes of the checks on the bytes, which the accepted start reads as the host wrote them. -/
theorem startDecode : Obligations.StartDecode := by
  intro s rest f hin hb hknown w h header trailer small
  have hf : InputIs f (acceptStart .decode { s with inbox := rest }) := fun a ha => readIbuf_of_readCell (hknown a ha)
  rw [step_startDecode hin hb]
  refine ⟨fun hbad => ?_, fun ⟨hgood, hbad⟩ => ?_, fun ⟨hgood, htrailer, hlarge⟩ => ?_,
    fun ⟨hgood, htrailer, hsmall, hroom⟩ => ?_⟩
  · exact ⟨_, startDecode_of_error (hf.decodeStartHeader_of_invalid hbad), entersError_acceptStart _ _ _⟩
  · have hsentinel := Bool.eq_false_iff.mpr (mt hf.sentinelOk_iff.mp hbad)
    refine ⟨_, startDecode_of_error ((hf.decodeStartHeader_of_valid hgood).trans ?_), entersError_acceptStart _ _ _⟩
    rw [hsentinel]
    rfl
  · refine ⟨_, startDecode_of_error ((hf.decodeStartHeader_of_valid hgood).trans ?_), entersError_acceptStart _ _ _⟩
    rw [hf.sentinelOk_iff.mpr htrailer]
    exact if_pos (Nat.lt_of_not_le hlarge)
  · refine ⟨_, startDecode_of_ok (hd := headerOf f) ((hf.decodeStartHeader_of_valid hgood).trans ?_) hroom, rfl, rfl, rfl, rfl,
      rfl, rfl, rfl, rfl, getElem_clearTable, rfl, rfl, rfl, rfl, rfl, rfl⟩
    rw [hf.sentinelOk_iff.mpr htrailer]
    exact if_neg (Nat.not_lt.mpr hsmall)

/-- Settles O40: by where the record at CUR ends; for N below 8 every record ends past N - 8, as in the model. -/
theorem recordStep : Obligations.RecordStep := by
  intro s hcall hquiet hleft ln
  have hpos := (length_kind (kind (readIbuf s s.cur))).1
  have hend : streamEnd s = s.inLen - 8 := rfl
  rw [step_eq_recordStep hcall hquiet hleft]
  refine ⟨fun hcur => ?_, fun _ hlong => ?_, fun hfits => ?_⟩
  · exact ⟨_, recordStep_of_exhausted (by omega), entersError_of_inCall hcall _⟩
  · exact ⟨_, recordStep_of_truncated (by omega), entersError_of_inCall hcall _⟩
  · obtain ⟨i, hdecode, hkind, hexec⟩ := recordStep_of_fits (s := s) (by omega)
    exact ⟨i, hdecode, congrArg Kind.length hkind, hexec⟩

/-- Settles O42: the call awaits the bytes of the word, and what they decode to is executed. -/
theorem fetchWordRuns : Obligations.FetchWordRuns := by
  intro s nbits w i hword
  obtain ⟨rest, hdecode⟩ := decode_of_decodeTableWord hword
  exact (awaitsBytes_placeRecord (tableBytes nbits w) s).step hdecode

/-- Settles O44: by how a record is executed; an error ends the call. -/
theorem recordStepAdvances : Obligations.RecordStepAdvances := by
  intro s t _ hcall hquiet hleft hstep hbusy
  rw [step_eq_recordStep hcall hquiet hleft] at hstep
  have hspec := recordStep_spec s
  split at hspec
  · obtain ⟨i, hdecode, hkind, hexec⟩ := hspec
    rw [hexec] at hstep
    rw [← hkind]
    obtain ⟨px, hsingle, hx⟩ | ⟨n, rfl, -, hx⟩ | ⟨n, rfl, -, hx⟩ := exec_cases i s <;> cases hx.symm.trans hstep
    · have hproduced := producePixel_spec px i.length s
      exact ⟨rfl, Nat.lt_succ_self _, hproduced.written, fun a ha => hproduced.otherPixels a (.inl ha),
        fun hrun => absurd hrun hsingle, fun _ => ⟨rfl, hproduced.table⟩⟩
    · obtain ⟨hpos, -⟩ := wellFormed_run_iff.mp (wellFormed_of_decode hdecode)
      obtain ⟨-, hcur, hout, hlast, hother⟩ := completes_runExecuted hpos s
      refine ⟨hcur, ?_, hout ▸ hlast, fun a ha => hother a (.inl ha), fun _ => ⟨rfl, rfl⟩, fun hne => absurd rfl hne⟩
      exact hout ▸ Nat.lt_add_of_pos_right hpos
    · simp at hbusy
  · cases hspec.symm.trans hstep
    simp at hbusy

/-- Settles O41: a pause only takes the action from the host's list, which neither the fetch nor its checks read. -/
theorem stepRunsDecodedRecord : Obligations.StepRunsDecodedRecord := by
  intro s i hw hcall hleft hbytes hend
  refine ⟨fun hquiet => step_of_memRead_eq_encode hcall hquiet hleft hw hbytes hend, fun rest hin => ?_⟩
  rw [step_of_action hin]
  rw [← memRead_congr (s := s) (t := { s with inbox := rest }) rfl rfl] at hbytes
  exact engineStep_of_memRead_eq_encode (s := { s with inbox := rest }) hcall hleft hw hbytes hend

/-- Settles O43: with every pixel produced the engine's step is the finish step. -/
theorem finishDecode : Obligations.FinishDecode := by
  intro s hcall hquiet hout hlen
  have hend : streamEnd s = s.inLen - 8 := rfl
  rw [step_eq_finishDecode hcall hquiet hout]
  refine ⟨fun hcur => ?_, fun hcur => ?_⟩
  · exact ⟨_, if_pos (by omega), entersError_of_inCall hcall _⟩
  · exact if_neg (by omega)

end Sys2Proof.Decoder
end

section
/-!
PROOF. Two decode calls on the same input bytes and parameters side by side (spec/44_decoder.md R127): they agree on all that a
decode call reads, so each step keeps them in agreement, whatever else the two states hold.
-/

namespace Sys2Proof.Machine

variable {s t : State}

/-- Two states whose steps keep a relation between them still have it after any number of steps. -/
theorem exists_run_of_exists_step {R : State → State → Prop}
    (hstep : ∀ s t, R s t → ∃ s' t', step s = .next s' ∧ step t = .next t' ∧ R s' t') (h : R s t) (k : Nat) :
    ∃ s' t', Host.Core.run Sys2Proof.core k s = .next s' ∧ Host.Core.run Sys2Proof.core k t = .next t' ∧ R s' t' := by
  induction k generalizing s t with
  | zero => exact ⟨s, t, rfl, rfl, h⟩
  | succ k ih =>
    obtain ⟨s₁, t₁, hs, ht, h₁⟩ := hstep s t h
    rw [run_of_step hs, run_of_step ht]
    exact ih h₁

/-! ### The input -/

/-- The two states hold the same decode input: the parameters, IN_LEN and what is read of the bytes below it. -/
structure SameDecodeInput (s t : State) : Prop where
  inLen : t.inLen = s.inLen
  params : t.params = s.params
  bytes : ∀ a, a < s.inLen → readIbuf t a = readIbuf s a

/-- Input bytes that the host has written are read alike, whatever the free values of the two states (R44). -/
theorem SameDecodeInput.of_known (hlen : t.inLen = s.inLen) (hparams : t.params = s.params)
    (hknown : ∀ a, a < s.inLen → ∃ b, readCell s.mem.ibuf a = some b ∧ readCell t.mem.ibuf a = some b) :
    SameDecodeInput s t where
  inLen := hlen
  params := hparams
  bytes a ha := by
    obtain ⟨b, hs, ht⟩ := hknown a ha
    rw [readIbuf_of_readCell hs, readIbuf_of_readCell ht]

/-- MemRead inside the input reads the same bytes in both (R11). -/
theorem SameDecodeInput.memRead (h : SameDecodeInput s t) {a n : Nat} (hend : a + n ≤ s.inLen) :
    memRead t a n = memRead s a n := by
  have hs : InputIs (readIbuf s) s := fun _ _ => rfl
  have ht : InputIs (readIbuf s) t := fun a ha => h.bytes a (h.inLen ▸ ha)
  rw [ht.memRead (h.inLen.symm ▸ hend), hs.memRead hend]

theorem SameDecodeInput.sentinelOk (h : SameDecodeInput s t) : sentinelOk t = sentinelOk s := by
  by_cases hlen : 22 ≤ s.inLen
  · rw [Machine.sentinelOk, Machine.sentinelOk, h.inLen, h.params, h.memRead (by omega)]
  · simp only [Machine.sentinelOk, h.inLen, decide_eq_false hlen, Bool.false_and]

/-- The checks of START_DECODE read the input bytes and the parameters alone (R117). -/
theorem SameDecodeInput.decodeStartHeader (h : SameDecodeInput s t) : decodeStartHeader t = decodeStartHeader s := by
  unfold Machine.decodeStartHeader
  rw [h.inLen]
  split
  · rfl
  · next hlen => rw [h.memRead (by omega), h.params, h.sentinelOk]

/-! ### The calls -/

/-- The two states show the host the same STATUS, image registers, OUT_LEN and output pixels. -/
structure SameDecodeOutputs (s t : State) : Prop where
  status : t.status = s.status
  width : t.width = s.width
  height : t.height = s.height
  channels : t.channels = s.channels
  colorspace : t.colorspace = s.colorspace
  outLen : t.outLen = s.outLen
  opix : t.mem.opix = s.mem.opix

/-- The two states agree on all that a running decode call reads. -/
structure SameDecodeCall (s t : State) : Prop extends SameDecodeOutputs s t, SameDecodeInput s t where
  prev : t.prev = s.prev
  cur : t.cur = s.cur
  ht : t.ht = s.ht

/-- With the host idle two decode calls are still running in agreement, or both have ended with the same outputs. -/
inductive DecodeTwins (s t : State) : Prop where
  | running (quiet : s.inbox = [] ∧ t.inbox = []) (call : inCall .decode s) (same : SameDecodeCall s t)
  | ended (quiet : s.inbox = [] ∧ t.inbox = []) (notBusy : s.status.state ≠ .busy) (same : SameDecodeOutputs s t)

theorem DecodeTwins.sameOutputs (h : DecodeTwins s t) : SameDecodeOutputs s t := by
  cases h with
  | running _ _ same => exact same.toSameDecodeOutputs
  | ended _ _ same => exact same

/-- Two decode calls that raise the same error end alike: the error entry leaves nothing of what they held (R136). -/
theorem decodeTwins_raiseError (e : ErrorCode) (hquiet : s.inbox = [] ∧ t.inbox = []) (hs : s.status.mode = .decode)
    (ht : t.status.mode = .decode) : DecodeTwins (raiseError e s) (raiseError e t) :=
  .ended (by simpa using hquiet) (by simp) ⟨by simp [hs, ht], by simp [hs, ht], by simp [hs, ht], by simp [hs, ht],
    by simp [hs, ht], by simp, by simp⟩

theorem SameDecodeCall.pixelCount (h : SameDecodeCall s t) : pixelCount t = pixelCount s := by
  rw [Machine.pixelCount, Machine.pixelCount, h.width, h.height]

theorem SameDecodeCall.streamEnd (h : SameDecodeCall s t) : streamEnd t = streamEnd s := by
  rw [Machine.streamEnd, Machine.streamEnd, h.inLen]

theorem SameDecodeCall.inCall (h : SameDecodeCall s t) (hcall : inCall .decode s) : inCall .decode t := by
  rwa [Machine.inCall, isBusy, h.status]

/-! ### A record -/

/-- The last pixel of a record, from PREV and HT as the record finds them: the new pixel of the five single-pixel kinds (R93 to
R97), PREV itself for RUN (R98). -/
def recordPixel (i : Instr) (prev : Pixel) (ht : Vector Pixel 64) : Pixel :=
  match i with
  | .rgb r g b => rgbPixel prev r g b
  | .rgba r g b a => rgbaPixel r g b a
  | .index k => indexPixel ht k
  | .diff dr dg db => diffPixel prev dr dg db
  | .luma dg drg dbg => lumaPixel prev dg drg dbg
  | .run _ => prev

/-- A single-pixel record reads PREV and HT alone to make its pixel (R93 to R97). -/
theorem exec_of_kind_ne_run {i : Instr} (h : i.kind ≠ .run) (s : State) :
    exec i s = .next (producePixel (recordPixel i s.prev s.ht) i.length s) := by
  cases i with
  | rgb | rgba | index | diff | luma => rfl
  | run n => exact absurd rfl h

theorem SameDecodeCall.producePixel (h : SameDecodeCall s t) (px : Pixel) (len : Nat) :
    SameDecodeCall (producePixel px len s) (producePixel px len t) :=
  { h with
    outLen := congrArg (· + 1) h.outLen
    opix := by simp only [producePixel_mem_opix, h.opix, h.outLen]
    prev := rfl
    cur := congrArg (· + len) h.cur
    ht := congrArg (tablePut · px) h.ht }

theorem SameDecodeCall.runExecuted (h : SameDecodeCall s t) (n : Nat) :
    SameDecodeCall (runExecuted n s) (runExecuted n t) :=
  { h with
    outLen := by simp only [runExecuted_outLen, h.outLen]
    opix := by simp only [Machine.runExecuted, pixWrite_mem_opix, h.opix, h.outLen, h.prev]
    cur := congrArg (· + 1) h.cur }

/-- A record executed in both calls keeps them in agreement (R120). -/
theorem SameDecodeCall.exec (h : SameDecodeCall s t) (hquiet : s.inbox = [] ∧ t.inbox = []) (hcall : Machine.inCall .decode s)
    (i : Instr) : ∃ s' t', exec i s = .next s' ∧ exec i t = .next t' ∧ DecodeTwins s' t' := by
  obtain ⟨-, hmode⟩ := inCall_iff.mp hcall
  cases i with
  | run n =>
    by_cases hfit : s.outLen + n ≤ Machine.pixelCount s
    · have hfit' : t.outLen + n ≤ Machine.pixelCount t := by rwa [h.outLen, h.pixelCount]
      exact ⟨_, _, exec_run_of_fits hfit, exec_run_of_fits hfit', .running hquiet hcall (h.runExecuted n)⟩
    · have hover : Machine.pixelCount s < s.outLen + n := Nat.lt_of_not_le hfit
      have hover' : Machine.pixelCount t < t.outLen + n := by rwa [h.outLen, h.pixelCount]
      exact ⟨_, _, exec_run_of_not_fits hover, exec_run_of_not_fits hover',
        decodeTwins_raiseError _ hquiet hmode (h.status.symm ▸ hmode)⟩
  | rgb | rgba | index | diff | luma =>
    refine ⟨_, _, exec_of_kind_ne_run (by simp [Instr.kind]) s, exec_of_kind_ne_run (by simp [Instr.kind]) t,
      .running hquiet hcall ?_⟩
    rw [h.prev, h.ht]
    exact h.producePixel _ _

/-- A record step of each call finds the same record, or the stream at its end in both (R119). -/
theorem SameDecodeCall.recordStep (h : SameDecodeCall s t) (hquiet : s.inbox = [] ∧ t.inbox = [])
    (hcall : Machine.inCall .decode s) :
    ∃ s' t', recordStep s = .next s' ∧ recordStep t = .next t' ∧ DecodeTwins s' t' := by
  obtain ⟨-, hmode⟩ := inCall_iff.mp hcall
  have hraise := decodeTwins_raiseError .truncatedStream hquiet hmode (h.status.symm ▸ hmode)
  have hend : Machine.streamEnd s = s.inLen - 8 := rfl
  by_cases hleft : s.cur < Machine.streamEnd s
  · have hbyte : readIbuf t t.cur = readIbuf s s.cur := h.cur.symm ▸ h.bytes s.cur (by omega)
    by_cases hfits : s.cur + (kind (readIbuf s s.cur)).length ≤ Machine.streamEnd s
    · have hfits' : t.cur + (kind (readIbuf t t.cur)).length ≤ Machine.streamEnd t := by
        rwa [hbyte, h.cur, h.streamEnd]
      obtain ⟨i, hdecode, -, hexec⟩ := recordStep_of_fits hfits
      obtain ⟨j, hdecode', -, hexec'⟩ := recordStep_of_fits hfits'
      rw [hbyte, h.cur, h.memRead (by omega), hdecode] at hdecode'
      cases hdecode'
      rw [hexec, hexec']
      exact h.exec hquiet hcall i
    · have hlong := Nat.lt_of_not_le hfits
      have hlong' : Machine.streamEnd t < t.cur + (kind (readIbuf t t.cur)).length := by rwa [hbyte, h.cur, h.streamEnd]
      exact ⟨_, _, recordStep_of_truncated hlong, recordStep_of_truncated hlong', hraise⟩
  · have hpast := Nat.le_of_not_lt hleft
    have hpast' : Machine.streamEnd t ≤ t.cur := by rwa [h.cur, h.streamEnd]
    exact ⟨_, _, recordStep_of_exhausted hpast, recordStep_of_exhausted hpast', hraise⟩

/-- A finish step of each call ends both in DONE or both in DIMENSION_MISMATCH (R124). -/
theorem SameDecodeCall.finishDecode (h : SameDecodeCall s t) (hquiet : s.inbox = [] ∧ t.inbox = [])
    (hcall : Machine.inCall .decode s) :
    ∃ s' t', finishDecode s = .next s' ∧ finishDecode t = .next t' ∧ DecodeTwins s' t' := by
  obtain ⟨-, hmode⟩ := inCall_iff.mp hcall
  unfold Machine.finishDecode
  rw [h.cur, h.streamEnd]
  split
  · exact ⟨_, _, rfl, rfl, decodeTwins_raiseError _ hquiet hmode (h.status.symm ▸ hmode)⟩
  · exact ⟨_, _, rfl, rfl, .ended hquiet (by simp) { h.toSameDecodeOutputs with status := by simp only [h.status] }⟩

/-- A step of each keeps two decode calls in agreement. -/
theorem DecodeTwins.step (s t : State) (h : DecodeTwins s t) :
    ∃ s' t', step s = .next s' ∧ step t = .next t' ∧ DecodeTwins s' t' := by
  cases h with
  | ended quiet notBusy same =>
    refine ⟨s, t, ?_, ?_, .ended quiet notBusy same⟩
    · rw [step_of_quiet quiet.1, engineStep_of_not_busy notBusy]
    · rw [step_of_quiet quiet.2, engineStep_of_not_busy (same.status.symm ▸ notBusy)]
  | running quiet call same =>
    rw [step_of_quiet quiet.1, step_of_quiet quiet.2, engineStep_decode call, engineStep_decode (same.inCall call),
      decodeCallStep, decodeCallStep, same.outLen, same.pixelCount]
    rcases lt_trichotomy s.outLen (pixelCount s) with hlt | heq | hgt
    · rw [if_pos hlt, if_pos hlt]
      exact same.recordStep quiet call
    · rw [if_neg heq.not_lt, if_neg heq.not_lt, if_pos heq, if_pos heq]
      exact same.finishDecode quiet call
    · rw [if_neg hgt.not_gt, if_neg hgt.not_gt, if_neg hgt.ne', if_neg hgt.ne']
      exact ⟨s, t, rfl, rfl, .running quiet call same⟩

/-! ### The start -/

/-- Two calls that begin with the same header on the same input begin in agreement (R118, R149). -/
theorem SameDecodeInput.decodeBegun (h : SameDecodeInput (acceptStart .decode s) (acceptStart .decode t)) (w ht : Word32)
    (ch cs : Byte) : SameDecodeCall (decodeBegun w ht ch cs s) (decodeBegun w ht ch cs t) where
  status := rfl
  width := rfl
  height := rfl
  channels := rfl
  colorspace := rfl
  outLen := rfl
  opix := rfl
  inLen := h.inLen
  params := h.params
  bytes := h.bytes
  prev := rfl
  cur := rfl
  ht := rfl

/-- Two start steps on the same input fail the same check, or begin with the same header (R117). -/
theorem SameDecodeInput.startDecode (h : SameDecodeInput (acceptStart .decode s) (acceptStart .decode t))
    (hquiet : s.inbox = [] ∧ t.inbox = [])
    (hroom : ∀ hd, Machine.decodeStartHeader (acceptStart .decode s) = .ok hd →
      opixRoomNeeded hd s.inLen ≤ s.opixCap ∧ opixRoomNeeded hd t.inLen ≤ t.opixCap) :
    ∃ s' t', startDecode s = .next s' ∧ startDecode t = .next t' ∧ DecodeTwins s' t' := by
  cases hs : Machine.decodeStartHeader (acceptStart .decode s) with
  | error e =>
    exact ⟨_, _, startDecode_of_error hs, startDecode_of_error (h.decodeStartHeader.trans hs),
      decodeTwins_raiseError e hquiet rfl rfl⟩
  | ok hd =>
    obtain ⟨hroom, hroom'⟩ := hroom hd hs
    exact ⟨_, _, startDecode_of_ok hs hroom, startDecode_of_ok (h.decodeStartHeader.trans hs) hroom',
      .running hquiet rfl (h.decodeBegun _ _ _ _)⟩

/-- Settles O56: the start step sets the two calls side by side, and the steps after it keep them there. -/
theorem decodeDependsOnInputsOnly : Obligations.DecodeDependsOnInputsOnly := by
  intro s s' k hin hin' hb hb' hlen hparams hknown hroom
  have hself : SameDecodeInput s (acceptStart .decode { s with inbox := [] }) :=
    .of_known rfl rfl fun a ha => (hknown a ha).imp fun _ hb => ⟨hb.1, hb.1⟩
  have hinput : SameDecodeInput (acceptStart .decode { s with inbox := [] }) (acceptStart .decode { s' with inbox := [] }) :=
    .of_known hlen hparams hknown
  obtain ⟨t₁, t₁', hstart, hstart', h₁⟩ := hinput.startDecode ⟨rfl, rfl⟩ fun hd hok => by
    have hmin := le_min_iff.mp (hroom hd (hself.decodeStartHeader.symm.trans hok))
    rw [opixRoomNeeded, opixRoomNeeded, hlen]
    exact hmin
  obtain ⟨t, t', hrun, hrun', h⟩ := exists_run_of_exists_step DecodeTwins.step h₁ k
  obtain ⟨hstatus, hw, hh, hch, hcs, hout, hopix⟩ := h.sameOutputs
  rw [run_of_step ((step_startDecode hin hb).trans hstart), run_of_step ((step_startDecode hin' hb').trans hstart')]
  exact ⟨t, t', hrun, hrun', hstatus, hw, hh, hch, hcs, hout, hopix⟩

end Sys2Proof.Machine
end

section
/-!
PROOF. The error codes, what raising an error writes and keeps, and that the block then waits for a command
(spec/60_exceptions.md R132, R136, R146).
-/

namespace Sys2Proof.Machine

/-- The codes 9 to 15 that four bits could hold are the number of no error (R132). -/
theorem errorNumber_toNat_le (e : ErrorCode) : (errorNumber e).toNat ≤ 8 := by
  cases e <;> decide

/-- Settles O28: the nine numbers are the definition's own, and the bound is checked for each code. -/
theorem errorNumbers : Obligations.ErrorNumbers :=
  ⟨rfl, rfl, rfl, rfl, rfl, rfl, rfl, rfl, rfl, errorNumber_toNat_le⟩

/-- An error leaves no call running (R136). -/
theorem raiseError_not_busy (e : ErrorCode) (s : State) : (raiseError e s).status.state ≠ .busy := by
  simp

/-- Settles O29: an error leaves no call running, and the engine steps only in a running call. -/
theorem trapEntry : Obligations.TrapEntry :=
  fun e s => ⟨raiseError_spec e s, engineStep_of_not_busy (raiseError_not_busy e s)⟩

/-- Settles O31, by induction on the number of steps (`run_of_not_busy`): each one leaves the state as it is. -/
theorem noStepUntilCommand : Obligations.NoStepUntilCommand :=
  fun _ k hquiet hb => run_of_not_busy hquiet hb k

end Sys2Proof.Machine
end

section
/-!
PROOF. How a running call ends, what the host's writes do, when a step is refused, and what a reset leaves
(spec/70_reset_and_hazards.md R147, R150, R152, R154).
-/

namespace Sys2Proof.Machine

variable {s t e d : State}

/-! ### The end of a running call -/

/-- A running encode call comes to the end of its input, a pixel a step (R101, R110). -/
theorem EncodeRunning.exists_run_allConsumed (h : EncodeRunning e) :
    ∃ t, Host.Core.run Sys2Proof.core (e.inLen - e.cur) e = .next t ∧ EncodeRunning t ∧ t.cur = t.inLen := by
  have hleft : e.cur + (e.inLen - e.cur) = e.inLen := Nat.add_sub_cancel' (h.inv.encodeCall h.call).cur
  obtain ⟨hrun, hlast⟩ := h.iterate hleft.le
  obtain ⟨hcur, hlen, -, -⟩ := consumes_iterate (e.inLen - e.cur) e
  exact ⟨_, hrun, hlast, hcur.trans (hleft.trans hlen.symm)⟩

/-- Settles O51: the steps of the pixels left keep the call running, and the finish step after them writes STATE alone. -/
theorem encodeCallEnds : Obligations.EncodeCallEnds := by
  intro s hinv hcall hquiet
  obtain ⟨t, hrun, hlast, hcur⟩ := EncodeRunning.exists_run_allConsumed ⟨hinv, hcall, hquiet⟩
  have hfinish := step_eq_encodeFinished hlast.call hlast.quiet hcur (hlast.inv.run.trans (by decide))
  refine ⟨encodeFinished t, run_succ_of_run hrun hfinish, ?_, hcur⟩
  simp [encodeFinished, hlast.inv.status_of_inCall hlast.call]

/-! ### The engine refuses no step -/

theorem exists_settle_eq_next (s : State) (r : Except ErrorCode State) : ∃ t, settle s r = .next t := by
  cases r with
  | ok t => exact ⟨t, rfl⟩
  | error e => exact ⟨raiseError e s, rfl⟩

theorem exists_encodeCallStep_eq_next (s : State) : ∃ t, encodeCallStep s = .next t := by
  unfold encodeCallStep
  split
  · exact exists_settle_eq_next s _
  · split
    · exact exists_settle_eq_next s _
    · exact ⟨s, rfl⟩

theorem exists_recordStep_eq_next (s : State) : ∃ t, recordStep s = .next t := by
  have hspec := recordStep_spec s
  split at hspec
  · obtain ⟨i, -, -, hexec⟩ := hspec
    rw [hexec]
    obtain ⟨px, -, hx⟩ | ⟨n, -, -, hx⟩ | ⟨n, -, -, hx⟩ := exec_cases i s
    all_goals exact ⟨_, hx⟩
  · exact ⟨_, hspec⟩

theorem exists_finishDecode_eq_next (s : State) : ∃ t, finishDecode s = .next t := by
  unfold finishDecode
  split
  all_goals exact ⟨_, rfl⟩

theorem exists_decodeCallStep_eq_next (s : State) : ∃ t, decodeCallStep s = .next t := by
  unfold decodeCallStep
  split
  · exact exists_recordStep_eq_next s
  · split
    · exact exists_finishDecode_eq_next s
    · exact ⟨s, rfl⟩

/-- From every state the engine's step has a next state: an error is one (R131, R136). -/
theorem exists_engineStep_eq_next (s : State) : ∃ t, engineStep s = .next t := by
  unfold engineStep
  split
  · exact exists_encodeCallStep_eq_next s
  · exact exists_decodeCallStep_eq_next s
  all_goals exact ⟨s, rfl⟩

/-- A running decode call takes a step, which executes a record of at least one byte or ends the call (R119, R124, R128). -/
theorem DecodeRunning.exists_step (h : DecodeRunning d) :
    ∃ t, step d = .next t ∧ (Advances 1 d t ∨ callEnded t ∧ t.status.mode = .decode) := by
  obtain ⟨t, hengine⟩ := exists_engineStep_eq_next d
  have hstep : step d = .next t := (step_of_quiet h.quiet).trans hengine
  obtain ⟨hbusy, hdecode⟩ := inCall_iff.mp h.call
  obtain ⟨hmode, hstate⟩ := engineStatus_of_engineStep hengine
  refine ⟨t, hstep, (h.step_cases hstep).imp_right fun ⟨_, hended⟩ => ⟨?_, hmode.trans hdecode⟩⟩
  exact hstate.resolve_left fun hkept => hended (hkept.trans hbusy)

/-- A running decode call ends within a step for each byte left and one more: each step that does not end it takes a byte
off the bytes left, the measure of the induction (R128, R152). -/
theorem DecodeRunning.exists_run_callEnded (h : DecodeRunning d) :
    ∃ k t, k ≤ d.inLen - 8 - d.cur + 1 ∧ Host.Core.run Sys2Proof.core k d = .next t ∧
      callEnded t ∧ t.status.mode = .decode := by
  induction hleft : d.inLen - 8 - d.cur using Nat.strong_induction_on generalizing d with
  | _ left ih =>
    obtain ⟨u, hstep, hnext | hended⟩ := h.exists_step
    · have hcur := hnext.cur
      have hlen := hnext.inLen
      have hend := (hnext.running.inv.decodeCall hnext.running.call).curHigh
      obtain ⟨k, t, hk, hrun, hended⟩ := ih _ (by omega) hnext.running rfl
      exact ⟨k + 1, t, by omega, (run_of_step hstep).trans hrun, hended⟩
    · exact ⟨1, u, Nat.le_add_left 1 left, run_of_step hstep, hended⟩

/-- Settles O52, by induction on the bytes left (`DecodeRunning.exists_run_callEnded`). -/
theorem decodeCallEnds : Obligations.DecodeCallEnds :=
  fun _ hinv hcall hquiet => DecodeRunning.exists_run_callEnded ⟨hinv, hcall, hquiet⟩

/-! ### The host's writes -/

/-- A host action is a pause, a command, or a host write, forbidden exactly where R154 (or notes/assumptions/27.md) does not
allow the action. -/
theorem step_action_cases {a : HostAction} {rest : List HostAction} (hin : s.inbox = a :: rest) :
    a = .pause ∨ (∃ c, a = .command c) ∨ ∃ t, step s = hostWrite (!allowedByHost a s) t := by
  rw [step_of_action hin]
  cases a with
  | pause => exact .inl rfl
  | command c => exact .inr (.inl ⟨c, rfl⟩)
  | hardwareReset | writeStatus => exact .inr (.inr ⟨_, rfl⟩)
  | writeWidth | writeHeight | writeChannels | writeColorspace | writeInLen | writeIbuf | writeIpix | provideObuf
  | provideOpix | writeObuf | writeOpix =>
    rw [allowedByHost, Bool.not_not]
    exact .inr (.inr ⟨_, rfl⟩)

theorem step_of_not_allowed {a : HostAction} {rest : List HostAction} (hin : s.inbox = a :: rest)
    (h : allowedByHost a s = false) : step s = .refused .hostWroteWhileBusy := by
  obtain rfl | ⟨c, rfl⟩ | ⟨t, hwrite⟩ := step_action_cases hin
  · cases h
  · cases h
  · rw [hwrite, h]
    rfl

/-- A host write that is not forbidden has its effect. -/
theorem step_of_allowed_write {a : HostAction} {rest : List HostAction} {forbidden : Bool} (hin : s.inbox = a :: rest)
    (hwrite : hostStep a { s with inbox := rest } = hostWrite forbidden t) (h : (!forbidden) = true) : step s = .next t :=
  (step_of_action hin).trans (hwrite.trans (hostWrite_eq_next_iff.mpr ⟨(Bool.not_eq_true' _).mp h, rfl⟩))

/-- Settles O32: a forbidden write is refused by `step_of_not_allowed`; an allowed one writes its register or its cell. -/
theorem hostWrites : Obligations.HostWrites := by
  refine ⟨fun s a rest => step_of_not_allowed, fun s a rest hin hallowed => ⟨?_, ?_, ?_, ?_, ?_, ?_, ?_⟩⟩
  · rintro v rfl
    exact step_of_allowed_write hin rfl hallowed
  · rintro v rfl
    exact step_of_allowed_write hin rfl hallowed
  · rintro v rfl
    exact step_of_allowed_write hin rfl hallowed
  · rintro v rfl
    exact step_of_allowed_write hin rfl hallowed
  · rintro n rfl
    exact step_of_allowed_write hin rfl hallowed
  · rintro x v rfl
    exact ⟨_, step_of_allowed_write hin rfl hallowed, readIbuf_of_readCell (readCell_writeCell_same _ x v),
      sameOutside_writeCells _ x [v], rfl⟩
  · rintro i p rfl
    exact ⟨_, step_of_allowed_write hin rfl hallowed, pixRead_of_readCell (readCell_writeCell_same _ i p),
      sameOutside_writeCells _ i [p], rfl⟩

/-! ### When a step is refused -/

theorem hostWrite_eq_refused {forbidden : Bool} {r : Refusal} (h : hostWrite forbidden t = .refused r) :
    forbidden = true ∧ r = .hostWroteWhileBusy := by
  cases forbidden with
  | false => cases h
  | true =>
    cases h
    exact ⟨rfl, rfl⟩

/-- START_ENCODE is refused only for the room of R150, once its checks have passed (R100). -/
theorem startEncode_eq_refused {r : Refusal} (h : startEncode s = .refused r) :
    r = .outputBufferTooSmall ∧ encodeStartError s = none ∧ s.obufCap < obufRoomNeeded s := by
  cases hcheck : encodeStartError s with
  | some e => cases (startEncode_of_error hcheck).symm.trans h
  | none =>
    have hpass : encodeStartError (acceptStart .encode s) = none := hcheck
    simp only [startEncode, hpass] at h
    split at h
    · next hroom =>
      cases h
      exact ⟨rfl, rfl, hroom⟩
    · cases h

/-- START_DECODE is refused only for the room of R150, once its checks have passed (R117). -/
theorem startDecode_eq_refused {r : Refusal} (h : startDecode s = .refused r) :
    r = .outputBufferTooSmall ∧ ∃ hd, decodeStartHeader (acceptStart .decode s) = .ok hd ∧
      s.opixCap < opixRoomNeeded hd s.inLen := by
  cases hcheck : decodeStartHeader (acceptStart .decode s) with
  | error e => cases (startDecode_of_error hcheck).symm.trans h
  | ok hd =>
    simp only [startDecode, hcheck] at h
    split at h
    · next hroom =>
      cases h
      exact ⟨rfl, hd, rfl, hroom⟩
    · cases h

/-- A command is refused only where it starts a call (R17). -/
theorem acceptCommand_eq_refused {c : Command} {r : Refusal} (h : acceptCommand c s = .refused r) :
    s.status.state ≠ .busy ∧
      (c = .startEncode ∧ startEncode s = .refused r ∨ c = .startDecode ∧ startDecode s = .refused r) := by
  have hreset : c ≠ .reset := by
    rintro rfl
    cases h
  have hb : s.status.state ≠ .busy := by
    intro hb
    cases (acceptCommand_of_busy hb hreset).symm.trans h
  refine ⟨hb, ?_⟩
  cases c with
  | reset => exact absurd rfl hreset
  | startEncode => exact .inl ⟨rfl, (acceptCommand_startEncode hb).symm.trans h⟩
  | startDecode => exact .inr ⟨rfl, (acceptCommand_startDecode hb).symm.trans h⟩

/-- Settles O33: the engine refuses nothing, a command only a start without the room, and any other action is a host
write. -/
theorem refusedOnlyByHost : Obligations.RefusedOnlyByHost := by
  intro s r h
  cases hin : s.inbox with
  | nil =>
    obtain ⟨t, hnext⟩ := exists_engineStep_eq_next s
    cases ((step_of_quiet hin).trans hnext).symm.trans h
  | cons a rest =>
    refine ⟨a, rest, rfl, ?_⟩
    have hstep := (step_of_action hin).symm.trans h
    obtain rfl | ⟨c, rfl⟩ | ⟨t, hwrite⟩ := step_action_cases hin
    · obtain ⟨t, hnext⟩ := exists_engineStep_eq_next { s with inbox := rest }
      cases hnext.symm.trans hstep
    · obtain ⟨hb, ⟨rfl, hstart⟩ | ⟨rfl, hstart⟩⟩ := acceptCommand_eq_refused hstep
      · obtain ⟨hr, hcheck, hroom⟩ := startEncode_eq_refused hstart
        exact .inr ⟨hr, hb, .inl ⟨rfl, hcheck, hroom⟩⟩
      · obtain ⟨hr, hd, hcheck, hroom⟩ := startDecode_eq_refused hstart
        exact .inr ⟨hr, hb, .inr ⟨rfl, hd, hcheck, hroom⟩⟩
    · obtain ⟨hforbidden, hr⟩ := hostWrite_eq_refused (hwrite.symm.trans h)
      exact .inl ⟨hr, (Bool.not_eq_true' _).mp hforbidden⟩

/-! ### Reset -/

/-- The RESET command and the hardware reset do the same, in every state (R147). -/
theorem step_of_reset {a : HostAction} {rest : List HostAction} (ha : a = .command .reset ∨ a = .hardwareReset)
    (hin : s.inbox = a :: rest) : step s = .next (resetRegisters { s with inbox := rest }) := by
  obtain rfl | rfl := ha
  all_goals exact step_of_action hin

/-- Settles O25: by the fields of `resetRegisters`; each slot of the table is that of `clearTable`. -/
theorem resetPutsRegisters : Obligations.ResetPutsRegisters :=
  fun _ _ _ ha hin => ⟨_, step_of_reset ha hin, rfl, rfl, rfl, rfl, rfl, rfl, rfl, rfl, rfl, rfl, getElem_clearTable, rfl,
    rfl, rfl, rfl, rfl, rfl⟩

end Sys2Proof.Machine
end
